-- ==== Sys2Proof/Word.lean ====
section
/-!
DEFINITION. Words of the engine: the 64-bit lane, the 8-bit command word, and the 5 × 5 array of lanes.

The spec numbers lanes by a pair (x, y), both in 0..4, and reduces every index expression modulo 5 (R10, R122).
`Fin 5` arithmetic is that arithmetic, so `x - 1` at `x = 0` is 4 and `x + 2` at `x = 4` is 1.
-/

namespace Sys2Proof

/-- A lane: a 64-bit unsigned number whose bit 0 is the least significant bit (R9). -/
abbrev Lane := BitVec 64

/-- A command word as the host presents it on `cmd` (R8, R81). -/
abbrev CmdWord := BitVec 8

/-- Five values indexed by 0..4: a row or a column of the 5 × 5 array. -/
structure Five (α : Type) where
  at0 : α
  at1 : α
  at2 : α
  at3 : α
  at4 : α
deriving DecidableEq, Repr

/-- The value at index `i`. -/
def Five.get {α : Type} (v : Five α) (i : Fin 5) : α :=
  match i with
  | 0 => v.at0
  | 1 => v.at1
  | 2 => v.at2
  | 3 => v.at3
  | 4 => v.at4

/-- The five values `f 0` to `f 4`. -/
def Five.tabulate {α : Type} (f : Fin 5 → α) : Five α :=
  ⟨f 0, f 1, f 2, f 3, f 4⟩

/-- The permutation state: 25 lanes `S[x][y]` (R31). The outer index is x, the inner one y. -/
abbrev StateArray := Five (Five Lane)

/-- `S[x][y]` (R11, R31). -/
def StateArray.lane (A : StateArray) (x y : Fin 5) : Lane :=
  (A.get x).get y

/-- The array whose lane (x, y) is `f x y`. -/
def StateArray.ofLanes (f : Fin 5 → Fin 5 → Lane) : StateArray :=
  Five.tabulate fun x => Five.tabulate fun y => f x y

/-- The all-zero 1600-bit state (R31, R210). -/
def StateArray.zero : StateArray :=
  StateArray.ofLanes fun _ _ => 0

end Sys2Proof
end

