-- ==== Sys2Proof/Syntax.lean ====
section
/-!
DEFINITION. The engine's commands, one constructor per row of spec/opcode_table.json (R84), and the lines of a command
program in the spec's assembler syntax (R87).
-/

namespace Sys2Proof

/-- The 13 defined commands (R84). No command has an explicit operand (R82). -/
inductive Instr where
  | nop
  | init
  | theta
  | rho
  | pi
  | chi
  | iota
  | round
  | permute
  | load
  | absorb
  | squeeze
  | hash
deriving DecidableEq, Repr

/-- The three command groups (R81). -/
inductive Group where
  | control
  | permutation
  | sponge
deriving DecidableEq, Repr

/-- The group of a command (R84, column Group). -/
def Instr.group : Instr → Group
  | .nop | .init => .control
  | .theta | .rho | .pi | .chi | .iota | .round | .permute => .permutation
  | .load | .absorb | .squeeze | .hash => .sponge

/-- Every command, in the order of R84. -/
def Instr.all : List Instr :=
  [.nop, .init, .theta, .rho, .pi, .chi, .iota, .round, .permute, .load, .absorb, .squeeze, .hash]

/-- The mnemonic, as the opcode table and the assembler spell it (R84, R87). -/
def Instr.mnemonic : Instr → String
  | .nop => "NOP"
  | .init => "INIT"
  | .theta => "THETA"
  | .rho => "RHO"
  | .pi => "PI"
  | .chi => "CHI"
  | .iota => "IOTA"
  | .round => "ROUND"
  | .permute => "PERMUTE"
  | .load => "LOAD"
  | .absorb => "ABSORB"
  | .squeeze => "SQUEEZE"
  | .hash => "HASH"

/-- One line of a command program, its comment taken off (R87). -/
inductive AsmLine where
  /-- an empty line, or a comment alone: no item (log entry 6) -/
  | blank
  /-- a mnemonic -/
  | cmd (i : Instr)
  /-- `.raw 0xNN` -/
  | raw (code : CmdWord)
  /-- `.rep n` -/
  | rep (n : Nat)
  /-- `.endr` -/
  | endr
  /-- `RESET`, which stands for the reset transition and is no command code -/
  | reset
deriving DecidableEq, Repr

end Sys2Proof
end

