-- ==== Sys2Proof/Decode.lean ====
section
/-!
DEFINITION. The decoder, total on all 256 command words (R86), the fields of the one format CMD8 (R81), and the encoder
(R84).
-/

namespace Sys2Proof

/-- The decoder's verdict: a command, or `RESERVED(c)`, which is a verdict and not a command (R86). -/
inductive Decoded where
  | cmd (i : Instr)
  | reserved (c : CmdWord)
deriving DecidableEq, Repr

/-- Bits [7:4], the operation's group (R81). -/
def groupField (c : CmdWord) : BitVec 4 := c.extractLsb' 4 4

/-- Bits [3:0], the operation within its group (R81). -/
def funcField (c : CmdWord) : BitVec 4 := c.extractLsb' 0 4

/-- The GROUP field of each group (R81): 0 control, 1 permutation, 2 sponge. -/
def groupCode : Group → BitVec 4
  | .control => 0
  | .permutation => 1
  | .sponge => 2

/-- The decoder of R86. -/
def decodeWord (c : CmdWord) : Decoded :=
  match c with
  | 0x00 => .cmd .nop
  | 0x01 => .cmd .init
  | 0x10 => .cmd .theta
  | 0x11 => .cmd .rho
  | 0x12 => .cmd .pi
  | 0x13 => .cmd .chi
  | 0x14 => .cmd .iota
  | 0x15 => .cmd .round
  | 0x16 => .cmd .permute
  | 0x20 => .cmd .load
  | 0x21 => .cmd .absorb
  | 0x22 => .cmd .squeeze
  | 0x23 => .cmd .hash
  | c => .reserved c

/-- The command code of each command (R84). -/
def encode : Instr → CmdWord
  | .nop => 0x00
  | .init => 0x01
  | .theta => 0x10
  | .rho => 0x11
  | .pi => 0x12
  | .chi => 0x13
  | .iota => 0x14
  | .round => 0x15
  | .permute => 0x16
  | .load => 0x20
  | .absorb => 0x21
  | .squeeze => 0x22
  | .hash => 0x23

/-- The command word held by the low `nbits` bits of `w`, every other bit zero. A command is one 8-bit word (R81). -/
def tableWord (nbits w : Nat) : CmdWord :=
  BitVec.ofNat 8 (w % 2 ^ nbits)

/-- The instruction the decoder reads from an opcode-table word, or none where its verdict is RESERVED. -/
def decodeTableWord (nbits w : Nat) : Option Instr :=
  match decodeWord (tableWord nbits w) with
  | .cmd i => some i
  | .reserved _ => none

end Sys2Proof
end

