-- ==== Sys2Proof/Config.lean ====
section
/-!
DEFINITION. What is fixed when an engine is built: the message length `L` (R6, R262), and the one value the spec leaves open.

The fixed parameters of R5 and R8 stand in the types of the model as literals: 64-bit lanes, a 5 × 5 array, 1600 state
bits, 24 rounds, rate 1088, capacity 512, a 256-bit digest, an 8-bit command word, a 32-bit status word and a 16-bit
block counter.
-/

namespace Sys2Proof

/-- The largest message length an engine can be built for, `L_MAX` (R6). It is `65535 * 1088 - 2`. -/
def lMax : Nat := 71302078

/-- The elaboration-time parameter of an engine: `L` with the proof that `1 ≤ L ≤ L_MAX` (R6, R262). -/
structure Config where
  msgBits : Nat
  legal : 1 ≤ msgBits ∧ msgBits ≤ lMax
deriving DecidableEq, Repr

/-- The build that `State.reset` names: L = 256, the length of scenario (a) of the spec's test vectors.
DESIGN CHOICE (log entry 1): the spec leaves L open. Every meaning, law and statement is for every `Config`. -/
def Config.standard : Config := ⟨256, by decide⟩

/-- FREE VALUE (log entry 4): the bits ABSORB would XOR in for a block number `b` at or past NBLK, given L and M. The
spec defines `Block(M, b)` for `b` in 0..NBLK-1 only (R195), and only a power-up state before the first reset can ask
for another one (R48, R282). It has no body: nothing can be proved about its value. -/
opaque Config.blockPastEnd : (msgBits : Nat) → BitVec msgBits → Nat → BitVec 1088

end Sys2Proof
end

