-- ==== Sys2Proof/Machine/State.lean ====
section
/-!
DEFINITION. The engine's registers (R31 to R39, R45), the host's side of the ports (R46, R265), the reasons a step can
stop, and the state after reset (R280).
-/

namespace Sys2Proof.Machine

/-- The sponge controller's phase, PHASE (R35). -/
inductive Phase where
  | idle
  | absorb
  | squeeze
  | done
deriving DecidableEq, Repr

/-- The error code, ERRCODE. Codes 3..15 are never produced (R37, R251, U7). -/
inductive ErrCode where
  | none
  | illegalCmd
  | badPhase
deriving DecidableEq, Repr

/-- The engine's registers between two commands: exactly the tuple of R45, for an engine built with `c`. -/
structure Engine (c : Config) where
  /-- S, the permutation state (R31) -/
  array : StateArray
  /-- RND, the round index, 0..23 (R33) -/
  rnd : Fin 24
  /-- BLK, the block counter (R34) -/
  blk : BitVec 16
  /-- PHASE (R35) -/
  phase : Phase
  /-- ERR, the sticky error flag (R36) -/
  err : Bool
  /-- ERRCODE (R37) -/
  errCode : ErrCode
  /-- M, the message latch: bit j of the vector is `M[j]` (R38) -/
  msg : BitVec c.msgBits
  /-- DIG, the digest register: bit i of the vector is `DIG[i]` (R39) -/
  dig : BitVec 256
deriving DecidableEq, Repr

/-- What the host can do to a built engine (R265): drive `msg_in`, present a code on `cmd`, assert `rst` (alone or
together with a command, R254), or read the outputs. One move a step (log entry 8). -/
inductive HostMove (c : Config) where
  | drive (m : BitVec c.msgBits)
  | issue (code : CmdWord)
  | reset (withCmd : Option CmdWord)
  | read
deriving DecidableEq, Repr

/-- The whole system of R30: the engine, and the host that drives its ports. -/
structure State where
  /-- the build: L with its bounds (R6, R262); no step changes it (log entry 7) -/
  cfg : Config
  /-- the engine's registers -/
  eng : Engine cfg
  /-- the value on the input port `msg_in` (R46) -/
  msgIn : BitVec cfg.msgBits
  /-- the host's coming moves, the next one first (R69, R265; log entry 3) -/
  script : List (HostMove cfg)
deriving DecidableEq, Repr

/-- No behaviour of the engine stops it: there are no traps (R256), every command terminates (R288), and the outcome of
every code in every phase is defined (R80, R265). So no step faults and this type has no constructor (log entry 10). -/
inductive Fault where
deriving DecidableEq, Repr

/-- Why an engine cannot be built (R262). -/
inductive ElabError where
  /-- L < 1 -/
  | lengthTooSmall
  /-- L > L_MAX -/
  | lengthTooLarge
  /-- a round-constant or rotation-offset entry is missing or differs from R140 or R141 -/
  | tableMismatch
deriving DecidableEq, Repr

/-- The refusals. No step of a built engine refuses. -/
inductive Refusal where
  /-- Raised by an arm of `exec` for an instruction that has no meaning yet. No arm does so now. Safe. -/
  | notModelled (mnemonic : String)
  /-- Raised by `elaborate` for a build the spec rejects (R262): no engine exists. Safe. -/
  | elaboration (reason : ElabError)
deriving DecidableEq, Repr

/-- Every register at its reset value (R280). -/
def Engine.reset (c : Config) : Engine c where
  array := StateArray.zero
  rnd := 0
  blk := 0
  phase := .idle
  err := false
  errCode := .none
  msg := 0
  dig := 0

/-- The engine built with `c` right after reset, with no host move pending. `msg_in` is a port and not a register, so
reset gives it no value: zero here is a DESIGN CHOICE (log entry 2). -/
def State.resetOf (c : Config) : State where
  cfg := c
  eng := Engine.reset c
  msgIn := 0
  script := []

/-- The machine right after reset (R280), for the build `Config.standard` (DESIGN CHOICE, log entry 1). -/
def State.reset : State :=
  State.resetOf Config.standard

end Sys2Proof.Machine
end

