-- ==== Sys2Proof/Machine/Ops.lean ====
section
/-!
DEFINITION. The operations every command goes through: replacing the engine's registers, `raise CmdError` (R252), the
checks before a command is performed (R253, R254, R255), and the reset transition (R280).

The engine has no traps, so `raise CmdError` is all there is to taking an exception: nothing is saved, no control is
transferred, and there is no return (R256).
-/

namespace Sys2Proof.Machine

/-- The outcome of a step of this machine. -/
abbrev StepOutcome := Host.Outcome State Fault Refusal

/-- The state with the engine's registers replaced as a whole (R12, R65). -/
def State.withEngine (s : State) (e : Engine s.cfg) : State :=
  { s with eng := e }

/-- `raise CmdError(code)`: ERR and ERRCODE are set and no other register changes (R252). -/
def Engine.raiseCmdError {c : Config} (e : Engine c) (code : ErrCode) : Engine c :=
  { e with err := true, errCode := code }

/-- The error gate: while ERR = 1 the command is ignored and no register changes (R255). -/
def Engine.gated {c : Config} (e : Engine c) (act : Engine c → Engine c) : Engine c :=
  if e.err then e else act e

/-- A command that is legal in the phases `legal`: the error gate, then the phase check, then the command (R254). -/
def Engine.attempt {c : Config} (e : Engine c) (legal : List Phase) (act : Engine c → Engine c) : Engine c :=
  e.gated fun e => if e.phase ∈ legal then act e else e.raiseCmdError .badPhase

/-- A command that writes the engine's registers by `act` once it has passed its checks. -/
def State.attempt (s : State) (legal : List Phase) (act : Engine s.cfg → Engine s.cfg) : StepOutcome :=
  .next (s.withEngine (s.eng.attempt legal act))

/-- The reset transition: every register goes to its reset value. The ports and the build are untouched (R280). -/
def State.resetEngine (s : State) : State :=
  s.withEngine (Engine.reset s.cfg)

end Sys2Proof.Machine
end

