-- ==== Sys2Proof/Machine/Control.lean ====
section
/-!
DEFINITION. The control commands NOP and INIT (44_control.md). Both are performed in every phase, also while ERR = 1.
-/

namespace Sys2Proof.Machine

/-- NOP: no register changes, also while ERR = 1 (R240). -/
def execNop (s : State) : StepOutcome :=
  .next s

/-- INIT: exactly the register changes of the reset transition, also while ERR = 1 (R241). -/
def execInit (s : State) : StepOutcome :=
  .next s.resetEngine

end Sys2Proof.Machine
end

