-- ==== Sys2Proof/Machine/Lanes.lean ====
section
/-!
DEFINITION. The bit and lane utilities (40_lane_utilities.md, R110 to R122). No command performs one of them on its own;
the permutation, padding and sponge functions are built from them.
-/

namespace Sys2Proof.Machine

/-- XOR of two bits (R110). -/
def xor1 (a b : Bool) : Bool := a != b

/-- AND of two bits (R110). -/
def and1 (a b : Bool) : Bool := a && b

/-- NOT of a bit (R110). -/
def not1 (a : Bool) : Bool := !a

/-- XOR of two bit sequences of one length (R111); at length 64, of two lanes (R112). -/
abbrev xorBits {n : Nat} (a b : BitVec n) : BitVec n := a ^^^ b

/-- AND of two bit sequences of one length (R111); at length 64, of two lanes (R112). -/
abbrev andBits {n : Nat} (a b : BitVec n) : BitVec n := a &&& b

/-- NOT of a bit sequence (R111); at length 64, of a lane (R112). -/
abbrev notBits {n : Nat} (a : BitVec n) : BitVec n := ~~~a

/-- Left rotation of a lane by a distance in 0..63, in the number form of R113. At distance 0 the right shift by 64
gives 0 and the lane is unchanged. -/
def rotl64 (v : Lane) (n : Fin 64) : Lane :=
  (v <<< n.val) ||| (v >>> (64 - n.val))

/-- The `n`-bit sequence whose bit `k` is `f k`, as the number Σ f k · 2^k (R9). -/
def ofBits : (n : Nat) → (Nat → Bool) → BitVec n
  | 0, _ => 0#0
  | n + 1, f => (ofBits n f).cons (f n)

/-- `PackLane`: 64 ordered bits to a lane, the first bit least significant (R114). -/
def packLane (b : Nat → Bool) : Lane :=
  ofBits 64 b

/-- `UnpackLane`: bit `z` of a lane (R115). -/
def unpackLane (v : Lane) (z : Nat) : Bool :=
  v.getLsbD z

/-- The x coordinate of lane number `l = 5y + x` (R32). -/
def laneX (l : Nat) : Fin 5 := ⟨l % 5, Nat.mod_lt _ (by decide)⟩

/-- The y coordinate of lane number `l = 5y + x`, for `l < 25` (R32). -/
def laneY (l : Nat) : Fin 5 := ⟨l / 5 % 5, Nat.mod_lt _ (by decide)⟩

/-- The lane number `5y + x` (R32). -/
def laneNumber (x y : Fin 5) : Nat := 5 * y.val + x.val

/-- `sbit(S, i)`: bit `i` of the flattened state, for `i < 1600` (R119). -/
def sbit (A : StateArray) (i : Nat) : Bool :=
  unpackLane (A.lane (laneX (i / 64)) (laneY (i / 64))) (i % 64)

/-- `BitsFromState`: the state as a 1600-bit sequence (R117). -/
def bitsFromState (A : StateArray) : BitVec 1600 :=
  ofBits 1600 (sbit A)

/-- `StateFromBits`: lane (x, y) is packed from the 64 bits that start at `64 * (5y + x)` (R117). -/
def stateFromBits (s : BitVec 1600) : StateArray :=
  StateArray.ofLanes fun x y => s.extractLsb' (64 * laneNumber x y) 64

/-- `XorPrefix`: XOR an `n`-bit sequence, `n ≤ 1600`, into the first `n` flattened bits (R120). -/
def xorPrefix {n : Nat} (A : StateArray) (v : BitVec n) : StateArray :=
  stateFromBits (xorBits (bitsFromState A) (v.setWidth 1600))

/-- `Prefix`: the first `n` flattened bits, `n ≤ 1600` (R121). -/
def statePrefix (A : StateArray) (n : Nat) : BitVec n :=
  (bitsFromState A).setWidth n

end Sys2Proof.Machine
end

