-- ==== Sys2Proof/Machine/Tables.lean ====
section
/-!
DEFINITION. The two constant tables (ROMs) of R41, as literals (R140, R141), and the generators the spec gives to check
them against (R149).
-/

namespace Sys2Proof.Machine

/-- The table of R140 as the spec prints it: row `i` holds `RC[i]` and `RC[i + 12]`. -/
def rcRows : List (Lane × Lane) :=
  [(0x0000000000000001, 0x000000008000808B),
   (0x0000000000008082, 0x800000000000008B),
   (0x800000000000808A, 0x8000000000008089),
   (0x8000000080008000, 0x8000000000008003),
   (0x000000000000808B, 0x8000000000008002),
   (0x0000000080000001, 0x8000000000000080),
   (0x8000000080008081, 0x000000000000800A),
   (0x8000000000008009, 0x800000008000000A),
   (0x000000000000008A, 0x8000000080008081),
   (0x0000000000000088, 0x8000000000008080),
   (0x0000000080008009, 0x0000000080000001),
   (0x000000008000000A, 0x8000000080008008)]

/-- The constant ROM of R41, `RC[0]` first: the left column, then the right one. -/
def rcTable : List Lane :=
  rcRows.map Prod.fst ++ rcRows.map Prod.snd

theorem rcTable_length : rcTable.length = 24 := rfl

/-- `RC[i]` (R140). -/
def roundConstant (i : Fin 24) : Lane :=
  rcTable[i.val]'(by rw [rcTable_length]; exact i.isLt)

/-- The 25 rotation offsets, one row per y and one column per x, as R141 prints them. -/
def rhoTable : Five (Five (Fin 64)) :=
  ⟨⟨0, 1, 62, 28, 27⟩,
   ⟨36, 44, 6, 55, 20⟩,
   ⟨3, 10, 43, 25, 39⟩,
   ⟨41, 45, 15, 21, 8⟩,
   ⟨18, 2, 61, 56, 14⟩⟩

/-- `RHO[x][y]` (R141). -/
def rhoOffset (x y : Fin 5) : Fin 64 :=
  (rhoTable.get y).get x

/-- One step of the generator's shift register: bit i of the word is `R[i]` (R140). -/
def lfsrStep (r : BitVec 8) : BitVec 8 :=
  let shifted : BitVec 9 := (r.setWidth 9) <<< 1
  (if shifted.getLsbD 8 then shifted ^^^ 0x71#9 else shifted).setWidth 8

/-- The register after `t` steps from `[1,0,0,0,0,0,0,0]` (R140). -/
def lfsr : Nat → BitVec 8
  | 0 => 1
  | t + 1 => lfsrStep (lfsr t)

/-- The generator bit `rc(t)` (R140). -/
def rcBit (t : Nat) : Bool :=
  if t % 255 = 0 then true else (lfsr (t % 255)).getLsbD 0

/-- Round constant `i` by the generator: bit `2^j - 1` is `rc(j + 7i)` for j in 0..6, every other bit 0 (R140). -/
def generatedConstant (i : Nat) : Lane :=
  ofBits 64 fun k => (List.range 7).any fun j => k == 2 ^ j - 1 && rcBit (j + 7 * i)

/-- The position the offset generator stands at after `t` moves from (1, 0) (R141). -/
def rhoWalk : Nat → Fin 5 × Fin 5
  | 0 => (1, 0)
  | t + 1 => ((rhoWalk t).2, 2 * (rhoWalk t).1 + 3 * (rhoWalk t).2)

/-- The rotation offset of (x, y) by the generator; position (0, 0) is never visited and has offset 0 (R141). -/
def generatedOffset (x y : Fin 5) : Nat :=
  match (List.range 24).find? fun t => rhoWalk t == (x, y) with
  | some t => ((t + 1) * (t + 2) / 2) % 64
  | none => 0

end Sys2Proof.Machine
end

