-- ==== Sys2Proof/Machine/Keccak.lean ====
section
/-!
DEFINITION. The Keccak-f[1600] permutation as pure functions on the state array: the five step mappings (R142 to R146),
one round (R147), and the rounds in sequence (R148, R156).
-/

namespace Sys2Proof.Machine

/-- The column parity `C[x]` of θ, taken from the input state (R142). -/
def columnParity (A : StateArray) (x : Fin 5) : Lane :=
  xorBits (xorBits (xorBits (xorBits (A.lane x 0) (A.lane x 1)) (A.lane x 2)) (A.lane x 3)) (A.lane x 4)

/-- `D[x]` of θ (R142). -/
def thetaEffect (A : StateArray) (x : Fin 5) : Lane :=
  xorBits (columnParity A (x - 1)) (rotl64 (columnParity A (x + 1)) 1)

/-- θ, parity mixing (R142). -/
def theta (A : StateArray) : StateArray :=
  StateArray.ofLanes fun x y => xorBits (A.lane x y) (thetaEffect A x)

/-- ρ, lane rotation (R143). -/
def rho (A : StateArray) : StateArray :=
  StateArray.ofLanes fun x y => rotl64 (A.lane x y) (rhoOffset x y)

/-- π, lane relabelling: new lane (x, y) is old lane (x + 3y, x) (R144). -/
def pi (A : StateArray) : StateArray :=
  StateArray.ofLanes fun x y => A.lane (x + 3 * y) x

/-- χ, non-linear mixing along each row (R145). -/
def chi (A : StateArray) : StateArray :=
  StateArray.ofLanes fun x y =>
    xorBits (A.lane x y) (andBits (notBits (A.lane (x + 1) y)) (A.lane (x + 2) y))

/-- ι, constant injection into lane (0, 0) (R146). -/
def iota (A : StateArray) (i : Fin 24) : StateArray :=
  StateArray.ofLanes fun x y =>
    if x = 0 ∧ y = 0 then xorBits (A.lane 0 0) (roundConstant i) else A.lane x y

/-- One round with round index `i`: θ, ρ, π, χ, ι in that order (R147). -/
def keccakRound (A : StateArray) (i : Fin 24) : StateArray :=
  iota (chi (pi (rho (theta A)))) i

/-- `n` rounds in sequence, the first with round index `i`, the index advancing modulo 24. -/
def keccakRounds : Nat → Fin 24 → StateArray → StateArray
  | 0, _, A => A
  | n + 1, i, A => keccakRounds n (i + 1) (keccakRound A i)

/-- The permutation: rounds 0 to 23 (R148). -/
def keccakF (A : StateArray) : StateArray :=
  keccakRounds 24 0 A

/-- Rounds `i` to 23, the loop of PERMUTE (R156). -/
def remainingRounds (i : Fin 24) (A : StateArray) : StateArray :=
  keccakRounds (24 - i.val) i A

end Sys2Proof.Machine
end

