-- ==== Sys2Proof/Machine/Permutation.lean ====
section
/-!
DEFINITION. The permutation commands (R150 to R156). Each is legal in IDLE only, and writes S and, where its rule says
so, RND.
-/

namespace Sys2Proof.Machine

/-- THETA (R150). -/
def execTheta (s : State) : StepOutcome :=
  s.attempt [.idle] fun e => { e with array := theta e.array }

/-- RHO (R151). -/
def execRho (s : State) : StepOutcome :=
  s.attempt [.idle] fun e => { e with array := rho e.array }

/-- PI (R152). -/
def execPi (s : State) : StepOutcome :=
  s.attempt [.idle] fun e => { e with array := pi e.array }

/-- CHI (R153). -/
def execChi (s : State) : StepOutcome :=
  s.attempt [.idle] fun e => { e with array := chi e.array }

/-- IOTA: it uses the constant of RND and advances RND modulo 24 (R154). -/
def execIota (s : State) : StepOutcome :=
  s.attempt [.idle] fun e => { e with array := iota e.array e.rnd, rnd := e.rnd + 1 }

/-- ROUND: one round with the index RND, which advances modulo 24 (R155). -/
def execRound (s : State) : StepOutcome :=
  s.attempt [.idle] fun e => { e with array := keccakRound e.array e.rnd, rnd := e.rnd + 1 }

/-- PERMUTE: rounds RND to 23, then RND is 0 (R156). -/
def execPermute (s : State) : StepOutcome :=
  s.attempt [.idle] fun e => { e with array := remainingRounds e.rnd e.array, rnd := 0 }

end Sys2Proof.Machine
end

