-- ==== Sys2Proof/Machine/Padding.lean ====
section
/-!
DEFINITION. The 10*1 padding (42_padding.md, R190 to R198): the padded length and the block count (R7), the class of each
padded position, the padding function, the blocks, and the equivalent padding state machine.

A message is a `BitVec L` whose bit j is message bit j, so the first bit is bit 0.
-/

namespace Sys2Proof.Machine

/-- NBLK, the number of 1088-bit blocks of the padded message (R7). -/
def nblk (msgBits : Nat) : Nat := (msgBits + 1089) / 1088

/-- PADDED_LEN, the padded length in bits (R7, R191). -/
def paddedLen (msgBits : Nat) : Nat := nblk msgBits * 1088

/-- The class of a padded position (R196). -/
inductive PadClass where
  | msg
  | head
  | fill
  | tail
deriving DecidableEq, Repr

/-- The class of padded position `j`; it depends on `j` and L only (R196). -/
def padClass (msgBits j : Nat) : PadClass :=
  if j < msgBits then .msg
  else if j = msgBits then .head
  else if j = paddedLen msgBits - 1 then .tail
  else .fill

/-- `P[j]`, for `j < PADDED_LEN` (R192, by the classes of R196). -/
def padBit {msgBits : Nat} (m : BitVec msgBits) (j : Nat) : Bool :=
  match padClass msgBits j with
  | .msg => m.getLsbD j
  | .head => true
  | .fill => false
  | .tail => true

/-- `Pad(M)` (R192). -/
def pad {msgBits : Nat} (m : BitVec msgBits) : BitVec (paddedLen msgBits) :=
  ofBits (paddedLen msgBits) (padBit m)

/-- `Block(M, b)`, for `b` in 0..NBLK-1 (R195). -/
def block {msgBits : Nat} (m : BitVec msgBits) (b : Nat) : BitVec 1088 :=
  ofBits 1088 fun k => padBit m (b * 1088 + k)

/-- The states of the padding state machine (R197); `stop` is the state the spec calls END. -/
inductive PadState where
  | msg
  | head
  | fill
  | tail
  | stop
deriving DecidableEq, Repr

/-- The padding state machine: its state and its position counter (R197). -/
structure PadMachine where
  state : PadState
  pos : Nat
deriving DecidableEq, Repr

/-- The machine starts in MSG at position 0 (R197). -/
def padStart : PadMachine := ⟨.msg, 0⟩

/-- The bit the machine emits, none in END (R197, column Emits). -/
def padEmits {msgBits : Nat} (m : BitVec msgBits) (q : PadMachine) : Option Bool :=
  match q.state with
  | .msg => some (m.getLsbD q.pos)
  | .head => some true
  | .fill => some false
  | .tail => some true
  | .stop => none

/-- The state after HEAD or FILL at position `j` (R197). -/
def padAfterFill (msgBits j : Nat) : PadState :=
  if j + 1 < paddedLen msgBits - 1 then .fill else .tail

/-- The machine after one step; the position advances with every emitted bit (R197, columns Next state and Condition). -/
def padNext (msgBits : Nat) (q : PadMachine) : PadMachine :=
  match q.state with
  | .msg => ⟨if q.pos + 1 < msgBits then .msg else .head, q.pos + 1⟩
  | .head => ⟨padAfterFill msgBits q.pos, q.pos + 1⟩
  | .fill => ⟨padAfterFill msgBits q.pos, q.pos + 1⟩
  | .tail => ⟨.stop, q.pos + 1⟩
  | .stop => q

/-- The bits the machine emits in `n` steps from `q`, the first one first (R197). -/
def padOutput {msgBits : Nat} (m : BitVec msgBits) : Nat → PadMachine → List Bool
  | 0, _ => []
  | n + 1, q => (padEmits m q).toList ++ padOutput m n (padNext msgBits q)

end Sys2Proof.Machine
end

