-- ==== Sys2Proof/Machine/SpongeFunctions.lean ====
section
/-!
DEFINITION. The sponge as pure functions of the message (R210 to R216).
-/

namespace Sys2Proof.Machine

/-- One absorb step with a given block: XOR it into the rate, then permute (R211). -/
def absorbBlock (A : StateArray) (v : BitVec 1088) : StateArray :=
  keccakF (xorPrefix A v)

/-- `AbsorbStep(S, M, b)` (R211). -/
def absorbStep {msgBits : Nat} (A : StateArray) (m : BitVec msgBits) (b : Nat) : StateArray :=
  absorbBlock A (block m b)

/-- `Absorb_prefix(M, b)`: the state after absorbing blocks 0..b-1 from the zero state (R210). -/
def absorbPrefix {msgBits : Nat} (m : BitVec msgBits) : Nat → StateArray
  | 0 => StateArray.zero
  | b + 1 => absorbStep (absorbPrefix m b) m b

/-- `Absorb(M)` (R210). -/
def absorb {msgBits : Nat} (m : BitVec msgBits) : StateArray :=
  absorbPrefix m (nblk msgBits)

/-- `Squeeze(S)`: the first 256 bits, with no permutation (R213, R214). -/
def squeeze (A : StateArray) : BitVec 256 :=
  statePrefix A 256

/-- `Keccak256(M)` (R215). -/
def keccak256 {msgBits : Nat} (m : BitVec msgBits) : BitVec 256 :=
  squeeze (absorb m)

end Sys2Proof.Machine
end

