-- ==== Sys2Proof/Machine/Operands.lean ====
section
/-!
DEFINITION. The implicit operands of the commands (R82): S and RND come straight from their registers, the message from
`msg_in`, and the block from BLK, M and the padding function.
-/

namespace Sys2Proof.Machine

/-- The message operand of LOAD and HASH: all L bits of `msg_in`, sampled once (R64, R82, R283). -/
def State.messageOperand (s : State) : BitVec s.cfg.msgBits :=
  s.msgIn

/-- The block operand of ABSORB: `Block(M, BLK)` (R82, R195). For BLK at or past NBLK the spec defines no block, and the
bits are the free value of `Config.blockPastEnd` (log entry 4). -/
def Engine.blockOperand {c : Config} (e : Engine c) : BitVec 1088 :=
  if e.blk.toNat < nblk c.msgBits then block e.msg e.blk.toNat
  else Config.blockPastEnd c.msgBits e.msg e.blk.toNat

end Sys2Proof.Machine
end

