-- ==== Sys2Proof/Machine/Sponge.lean ====
section
/-!
DEFINITION. The sponge commands LOAD, ABSORB, SQUEEZE and HASH (R217 to R220).
-/

namespace Sys2Proof.Machine

/-- LOAD: latch `msg_in` and start a hash from the zero state. DIG is kept (R217). -/
def execLoad (s : State) : StepOutcome :=
  s.attempt [.idle, .done] fun e =>
    { e with msg := s.messageOperand, array := StateArray.zero, rnd := 0, blk := 0, phase := .absorb }

/-- ABSORB: absorb block BLK and count it; after the last block the phase is SQUEEZE (R218). -/
def execAbsorb (s : State) : StepOutcome :=
  s.attempt [.absorb] fun e =>
    { e with
      array := absorbBlock e.array e.blockOperand
      blk := e.blk + 1
      phase := if (e.blk + 1).toNat = nblk s.cfg.msgBits then .squeeze else e.phase }

/-- SQUEEZE: DIG takes the first 256 bits of S (R219). -/
def execSqueeze (s : State) : StepOutcome :=
  s.attempt [.squeeze] fun e => { e with dig := squeeze e.array, phase := .done }

/-- HASH: the whole hash of `msg_in` in one command (R220). -/
def execHash (s : State) : StepOutcome :=
  s.attempt [.idle, .done] fun e =>
    { e with
      msg := s.messageOperand
      array := absorb s.messageOperand
      rnd := 0
      blk := BitVec.ofNat 16 (nblk s.cfg.msgBits)
      dig := squeeze (absorb s.messageOperand)
      phase := .done }

end Sys2Proof.Machine
end

