-- ==== Sys2Proof/Machine/HostPort.lean ====
section
/-!
DEFINITION. The engine's side of the host's moves (R265): a code presented on `cmd` is decoded and performed as one
atomic step (R80), `rst` is the reset transition (R280), driving `msg_in` and reading the outputs change no register
(R66).
-/

namespace Sys2Proof.Machine

/-- A reserved code: ignored while ERR = 1, else `CmdError(ILLEGAL_CMD)` (R85, R254). -/
def State.refuseCode (s : State) : StepOutcome :=
  .next (s.withEngine (s.eng.gated fun e => e.raiseCmdError .illegalCmd))

/-- One code presented on `cmd` (R80, R86). -/
def State.issue (s : State) (code : CmdWord) : StepOutcome :=
  match decodeWord code with
  | .cmd i => exec i s
  | .reserved _ => s.refuseCode

/-- One move of the host (R265). A command that arrives together with `rst` is discarded (R254, R280). -/
def State.applyMove (s : State) (move : HostMove s.cfg) : StepOutcome :=
  match move with
  | .drive m => .next { s with msgIn := m }
  | .issue code => s.issue code
  | .reset _ => .next s.resetEngine
  | .read => .next s

/-- The state with its next host move taken off the script. -/
def State.advance (s : State) : State :=
  { s with script := s.script.tail }

/-- The next host move happens. With no move left the engine holds its registers (R264). -/
def State.serve (s : State) : StepOutcome :=
  match s.script with
  | [] => .next s
  | move :: _ => s.advance.applyMove move

/-- The state in which the host presents `code` before its other moves. -/
def State.presenting (s : State) (code : CmdWord) : State :=
  { s with script := .issue code :: s.script }

end Sys2Proof.Machine
end

