-- ==== Sys2Proof/Machine/Step.lean ====
section
/-! DEFINITION. One step of the system: the host's next move and the engine's answer to it (R69, R80). -/

namespace Sys2Proof.Machine

/-- One step. It is total, and never faults or refuses (R80, R288). -/
def step (s : State) : Host.Outcome State Fault Refusal :=
  s.serve

/-- The state in which the next command the host presents is the low `nbits` bits of `w`. The engine fetches nothing
(R43, R71): commands come from the host, so this puts the command at the front of the host's moves (log entry 3). -/
def State.withFetchWord (s : State) (nbits w : Nat) : State :=
  s.presenting (tableWord nbits w)

end Sys2Proof.Machine
end

