-- ==== Sys2Proof/WellFormed.lean ====
section
/-!
DEFINITION. The checks a term must pass before it means anything: an instruction (no command has an operand, so there
is nothing to check, R82), a message length (R6, R262), and a command program (R87).
-/

namespace Sys2Proof

/-- Every command is well formed: it has no register, immediate, mode or length field (R81, R82). -/
def Instr.WellFormed (_ : Instr) : Prop := True

/-- `1 ≤ L ≤ L_MAX` (R6). -/
def legalMsgBits (msgBits : Nat) : Bool :=
  decide (1 ≤ msgBits) && decide (msgBits ≤ lMax)

/-- The lines from here on close exactly `depth` open repeats, and every repeat count is at least 1 (R87). -/
def wellNested : Nat → List AsmLine → Bool
  | depth, [] => depth == 0
  | depth, .rep n :: rest => decide (1 ≤ n) && wellNested (depth + 1) rest
  | 0, .endr :: _ => false
  | depth + 1, .endr :: rest => wellNested depth rest
  | depth, .blank :: rest => wellNested depth rest
  | depth, .cmd _ :: rest => wellNested depth rest
  | depth, .raw _ :: rest => wellNested depth rest
  | depth, .reset :: rest => wellNested depth rest

/-- A command program is well formed when its repeats nest and each has a count of at least 1 (R87). -/
def wellFormedProgram (lines : List AsmLine) : Bool :=
  wellNested 0 lines

end Sys2Proof
end

