-- ==== Sys2Proof/Machine/Assembler.lean ====
section
/-!
DEFINITION. The assembler of R87: from the text of a command program to its lines, and from its lines to what they emit.
There are no pseudo-instructions (R88).
-/

namespace Sys2Proof.Machine

/-- What a program makes the host do: present a code, or assert `rst` (R87). -/
inductive AsmItem where
  | code (c : CmdWord)
  | reset
deriving DecidableEq, Repr

/-- The items of the lines left to read. `open_` holds the open repeats, innermost first: each one's count and the
items written before it; `here` holds the items of the innermost body so far. -/
def expandLines : List AsmLine → List (Nat × List AsmItem) → List AsmItem → Option (List AsmItem)
  | [], [], here => some here
  | [], _ :: _, _ => none
  | .blank :: rest, open_, here => expandLines rest open_ here
  | .cmd i :: rest, open_, here => expandLines rest open_ (here ++ [.code (encode i)])
  | .raw c :: rest, open_, here => expandLines rest open_ (here ++ [.code c])
  | .reset :: rest, open_, here => expandLines rest open_ (here ++ [.reset])
  | .rep n :: rest, open_, here => if 1 ≤ n then expandLines rest ((n, here) :: open_) [] else none
  | .endr :: rest, (n, before) :: open_, here =>
      expandLines rest open_ (before ++ (List.replicate n here).flatten)
  | .endr :: _, [], _ => none

/-- The items of a whole program; none where its repeats do not nest or a count is 0 (R87). -/
def expandProgram (lines : List AsmLine) : Option (List AsmItem) :=
  expandLines lines [] []

/-- The code an item emits on `cmd`; RESET emits nothing (R87). -/
def AsmItem.emits : AsmItem → Option CmdWord
  | .code c => some c
  | .reset => none

/-- A program's encoding: the codes its lines emit, in order (R87). -/
def programEncoding (lines : List AsmLine) : Option (List CmdWord) :=
  (expandProgram lines).map fun items => items.filterMap AsmItem.emits

/-- The host's moves for an item (R87, R265). -/
def AsmItem.move (c : Config) : AsmItem → HostMove c
  | .code w => .issue w
  | .reset => .reset none

/-- The host's moves for a program. -/
def programMoves (c : Config) (lines : List AsmLine) : Option (List (HostMove c)) :=
  (expandProgram lines).map fun items => items.map (AsmItem.move c)

/-- The words of a line: its text before any `;`, cut at blanks (R87). Blanks are spaces, tabs and carriage returns, as
many as there are, also before the first word (DESIGN CHOICE, log entry 6). -/
def lineWords (line : List Char) : List (List Char) :=
  ((line.takeWhile (· != ';')).splitOnP fun ch => ch == ' ' || ch == '\t' || ch == '\r').filter fun w => !w.isEmpty

/-- A decimal digit. -/
def decDigit (ch : Char) : Option Nat :=
  if '0' ≤ ch ∧ ch ≤ '9' then some (ch.toNat - 48) else none

/-- A hexadecimal digit, of either case (log entry 6). -/
def hexDigit (ch : Char) : Option Nat :=
  if 'A' ≤ ch ∧ ch ≤ 'F' then some (ch.toNat - 55)
  else if 'a' ≤ ch ∧ ch ≤ 'f' then some (ch.toNat - 87)
  else decDigit ch

/-- The count of `.rep`: a decimal number of at least one digit, leading zeros allowed, with no `0x` form. R87 gives
the count no numeral form, and the spec's programs write it in decimal (DESIGN CHOICE, log entry 6). -/
def decNumber (digits : List Char) : Option Nat :=
  if digits.isEmpty then none
  else digits.foldl (fun acc ch => acc.bind fun n => (decDigit ch).map fun d => 10 * n + d) (some 0)

/-- The code of `0xNN` (R87), with a small `x` and exactly two digits (DESIGN CHOICE, log entry 6). -/
def rawCode : List Char → Option CmdWord
  | ['0', 'x', hi, lo] => (hexDigit hi).bind fun h => (hexDigit lo).map fun l => BitVec.ofNat 8 (16 * h + l)
  | _ => none

/-- One line of program text (R87). An empty line, and a line of blanks or of a comment alone, is no item and emits
nothing: R87 is silent on empty lines (DESIGN CHOICE, log entry 6). None where the line is neither that nor one of the
forms of R87. -/
def parseLine (line : List Char) : Option AsmLine :=
  match lineWords line with
  | [] => some .blank
  | [w] =>
    if w = ".endr".toList then some .endr
    else if w = "RESET".toList then some .reset
    else (Instr.all.find? fun i => w = i.mnemonic.toList).map .cmd
  | [w, arg] =>
    if w = ".raw".toList then (rawCode arg).map .raw
    else if w = ".rep".toList then (decNumber arg).map .rep
    else none
  | _ => none

/-- The lines of a program's text (R87). -/
def parseProgram (text : String) : Option (List AsmLine) :=
  (text.toList.splitOnP (· == '\n')).mapM parseLine

/-- From program text to the codes it emits (R87). -/
def assemble (text : String) : Option (List CmdWord) :=
  (parseProgram text).bind programEncoding

end Sys2Proof.Machine
end

