-- ==== Sys2Proof/Machine/Bytes.lean ====
section
/-!
DEFINITION. The byte convention of the spec's test vectors (R62, D13). It is the host's, not the engine's: the engine has
no bytes.
-/

namespace Sys2Proof.Machine

/-- Bit `8k + t` is bit `t` of byte `k` (R62). -/
def messageOfBytes (bytes : List (BitVec 8)) : BitVec (8 * bytes.length) :=
  ofBits (8 * bytes.length) fun j => (bytes.getD (j / 8) 0).getLsbD (j % 8)

/-- Digest byte `k` is Σ DIG[8k+t] · 2^t, for k in 0..31 (R62). -/
def bytesOfDigest (dig : BitVec 256) : List (BitVec 8) :=
  (List.range 32).map fun k => dig.extractLsb' (8 * k) 8

end Sys2Proof.Machine
end

