-- ==== Sys2Proof/Machine/Elaborate.lean ====
section
/-!
DEFINITION. Building an engine (R6, R149, R262, R265 row Build): the checks made when the engine is elaborated. No
run-time behaviour corresponds to them.
-/

namespace Sys2Proof.Machine

/-- A row or column of five as a list. -/
def listOfFive {α : Type} (v : Five α) : List α :=
  [v.at0, v.at1, v.at2, v.at3, v.at4]

/-- The offsets of R141 as a list of rows. -/
def rhoRows : List (List Nat) :=
  (listOfFive rhoTable).map fun row => (listOfFive row).map fun n => n.val

/-- Build an engine for a message of `msgBits` bits with the given tables: refused when L is out of range or a table
entry is missing or differs from R140 and R141 (R262). -/
def elaborate (msgBits : Nat) (constants : List Lane) (offsets : List (List Nat)) :
    Host.Outcome Config Fault Refusal :=
  if h : 1 ≤ msgBits ∧ msgBits ≤ lMax then
    if constants = rcTable ∧ offsets = rhoRows then .next ⟨msgBits, h⟩
    else .refused (.elaboration .tableMismatch)
  else if msgBits < 1 then .refused (.elaboration .lengthTooSmall)
  else .refused (.elaboration .lengthTooLarge)

/-- The power-up values R282 admits for the registers: BLK in 0..NBLK, everything else of its type. RND is in 0..23,
PHASE one of its four values and ERRCODE one of its three codes by their types (R33, R35, U7; log entry 5). -/
def Engine.LegalDraw {c : Config} (e : Engine c) : Prop :=
  e.blk.toNat ≤ nblk c.msgBits

/-- The system at power-up, before the first reset: `registers` is the draw of R282, `msgIn` and `script` are the
host's. -/
def State.powerUp (c : Config) (registers : Engine c) (_ : registers.LegalDraw) (msgIn : BitVec c.msgBits)
    (script : List (HostMove c)) : State :=
  ⟨c, registers, msgIn, script⟩

end Sys2Proof.Machine
end

