-- ==== Sys2Proof/Machine/Flags.lean ====
section
/-!
DEFINITION. The status word (R40), the output ports (R46), and the table of the phases each command is legal in (R253).
Besides PHASE, ERR and ERRCODE the engine has no flags (R44).
-/

namespace Sys2Proof.Machine

/-- The PHASE field's value (R35). -/
def Phase.bits : Phase → BitVec 2
  | .idle => 0
  | .absorb => 1
  | .squeeze => 2
  | .done => 3

/-- The ERRCODE field's value (R251). -/
def ErrCode.bits : ErrCode → BitVec 4
  | .none => 0
  | .illegalCmd => 1
  | .badPhase => 2

/-- STATUS, a view of the registers (R40). -/
def Engine.statusWord {c : Config} (e : Engine c) : BitVec 32 :=
  e.phase.bits.setWidth 32
    ||| ((BitVec.ofBool e.err).setWidth 32 <<< 2)
    ||| (e.errCode.bits.setWidth 32 <<< 4)
    ||| (BitVec.ofNat 32 e.rnd.val <<< 8)
    ||| (e.blk.setWidth 32 <<< 16)

/-- The output port `status` (R40, R46). -/
def State.status (s : State) : BitVec 32 := s.eng.statusWord

/-- The output port `digest` shows DIG (R46, R47). -/
def State.digest (s : State) : BitVec 256 := s.eng.dig

/-- The output port `state_out` shows S, flattened (R46). -/
def State.stateOut (s : State) : BitVec 1600 := bitsFromState s.eng.array

/-- What the host observes: `(status, digest, state_out)` (R288). -/
def State.observation (s : State) : BitVec 32 × BitVec 256 × BitVec 1600 :=
  (s.status, s.digest, s.stateOut)

/-- The legality table of R253, a row per command and a column per phase. -/
def legalIn : Instr → Phase → Bool
  | .nop, _ => true
  | .init, _ => true
  | .theta, p => p == .idle
  | .rho, p => p == .idle
  | .pi, p => p == .idle
  | .chi, p => p == .idle
  | .iota, p => p == .idle
  | .round, p => p == .idle
  | .permute, p => p == .idle
  | .load, p => p == .idle || p == .done
  | .absorb, p => p == .absorb
  | .squeeze, p => p == .squeeze
  | .hash, p => p == .idle || p == .done

end Sys2Proof.Machine
end

