-- ==== Sys2Proof/Safety.lean ====
section
/-!
DEFINITION. What statements say about runs: the invariants between two commands (R48), when `digest` is a digest
(R284), and running a state through the host's moves.
-/

namespace Sys2Proof.Machine

/-- The registers hold legal values: R48 items 1 and 7. RND is in 0..23 by its type. -/
structure Engine.Ranges {c : Config} (e : Engine c) : Prop where
  err_iff : e.err = true ↔ e.errCode ≠ .none
  blk_le : e.blk.toNat ≤ nblk c.msgBits

/-- The counters agree with the phase: R48 items 2 to 5, without the digest. -/
structure Engine.Sequenced {c : Config} (e : Engine c) : Prop where
  idle : e.phase = .idle → e.blk = 0
  absorb : e.phase = .absorb → e.rnd = 0 ∧ e.blk.toNat < nblk c.msgBits
  squeeze : e.phase = .squeeze → e.rnd = 0 ∧ e.blk.toNat = nblk c.msgBits
  done : e.phase = .done → e.rnd = 0 ∧ e.blk.toNat = nblk c.msgBits

/-- S and DIG agree with the message latch: R48 item 6 and the digest of item 5. -/
structure Engine.Absorbed {c : Config} (e : Engine c) : Prop where
  array : e.phase ≠ .idle → e.array = absorbPrefix e.msg e.blk.toNat
  digest : e.phase = .done → ∀ i, i < 256 → e.dig.getLsbD i = sbit e.array i

/-- All the invariants of R48. -/
structure Engine.Inv {c : Config} (e : Engine c) : Prop where
  ranges : e.Ranges
  sequenced : e.Sequenced
  absorbed : e.Absorbed

/-- `digest` shows the digest of M: PHASE = DONE and ERR = 0 (R284). -/
def Engine.DigestValid {c : Config} (e : Engine c) : Prop :=
  e.phase = .done ∧ e.err = false

/-- A move that can clear the error: `rst`, or the code of INIT (R256). -/
def HostMove.clearsError {c : Config} : HostMove c → Bool
  | .drive _ => false
  | .issue code => code == encode .init
  | .reset _ => true
  | .read => false

/-- A move that samples `msg_in`: the codes of LOAD and HASH (R283). -/
def HostMove.samplesMessage {c : Config} : HostMove c → Bool
  | .drive _ => false
  | .issue code => code == encode .load || code == encode .hash
  | .reset _ => false
  | .read => false

/-- The answer to a command in a phase that does not allow it: ERR and ERRCODE are set, and nothing else changes
(R252, R253). -/
def State.badPhase (s : State) : StepOutcome :=
  .next (s.withEngine { s.eng with err := true, errCode := .badPhase })

/-- The all-ones state. -/
def onesArray : StateArray :=
  StateArray.ofLanes fun _ _ => 0xFFFFFFFFFFFFFFFF

/-- The state whose lane (x, y) holds the number 5y + x, TAG in the spec's test vectors. -/
def tagArray : StateArray :=
  StateArray.ofLanes fun x y => BitVec.ofNat 64 (laneNumber x y)

/-- Bit `z` of the parity of column `x`. -/
def parityBit (A : StateArray) (x : Fin 5) (z : Nat) : Bool :=
  xor1 (xor1 (xor1 (xor1 ((A.lane x 0).getLsbD z) ((A.lane x 1).getLsbD z)) ((A.lane x 2).getLsbD z))
    ((A.lane x 3).getLsbD z)) ((A.lane x 4).getLsbD z)

/-- `k` steps of the machine. -/
def runSteps (k : Nat) (s : State) : StepOutcome :=
  Sys2Proof.core.run k s

/-- The host presents the codes one after the other. -/
def issueAll {c : Config} (codes : List CmdWord) : List (HostMove c) :=
  codes.map .issue

/-- The state with another value on `msg_in`. -/
def State.withMsgIn (s : State) (m : BitVec s.cfg.msgBits) : State :=
  { s with msgIn := m }

/-- The state with its host moves replaced. -/
def State.withScript (s : State) (moves : List (HostMove s.cfg)) : State :=
  { s with script := moves }

end Sys2Proof.Machine
end

