-- ==== Sys2Proof/Certificates/Slice0/Obligations.lean ====
section
/-!
DEFINITION. The statements for the provers. Each one's docstring names the rules of spec/ it formalises.

A register result is stated as an equation `exec i s = .next (s.withEngine e)`: every field of `s` but the engine's
registers is unchanged, and `e` is given register by register or as an update of `s.eng`.
-/

open Sys2Proof Sys2Proof.Machine

-- ==== Encoding ====

/-- R84, R86: the decoder gives back the command whose code it is shown, for every well-formed command. -/
def Obligations.EveryCommandDecodesFromItsCode : Prop :=
  ∀ i : Instr, i.WellFormed →
    decodeWord (encode i) = .cmd i ∧ decodeTableWord 8 (encode i).toNat = some i

/-- R84: the words of the opcode map, bit by bit, for some commands of each group. -/
def Obligations.OpcodeWordsDecodeAsTheMapSays : Prop :=
  decodeWord 0b00000000#8 = .cmd .nop ∧ decodeWord 0b00000001#8 = .cmd .init ∧
  decodeWord 0b00010000#8 = .cmd .theta ∧ decodeWord 0b00010011#8 = .cmd .chi ∧
  decodeWord 0b00010100#8 = .cmd .iota ∧ decodeWord 0b00010110#8 = .cmd .permute ∧
  decodeWord 0b00100000#8 = .cmd .load ∧ decodeWord 0b00100011#8 = .cmd .hash

/-- R85: the reserved codes are the four ranges, 243 of the 256 values; the engine does not perform one, it raises
ILLEGAL_CMD, and none behaves as a NOP. -/
def Obligations.ReservedCodesAreRefused : Prop :=
  (∀ c : CmdWord, decodeWord c = .reserved c ↔
    (0x02 ≤ c.toNat ∧ c.toNat ≤ 0x0F) ∨ (0x17 ≤ c.toNat ∧ c.toNat ≤ 0x1F) ∨
    (0x24 ≤ c.toNat ∧ c.toNat ≤ 0x2F) ∨ (0x30 ≤ c.toNat ∧ c.toNat ≤ 0xFF)) ∧
  ((List.range 256).filter fun n => decodeWord (BitVec.ofNat 8 n) = .reserved (BitVec.ofNat 8 n)).length = 243 ∧
  (∀ (s : State) (c : CmdWord) (rest : List (HostMove s.cfg)), decodeWord c = .reserved c → s.eng.err = false →
    step (s.withScript (.issue c :: rest)) =
        .next ((s.withScript rest).withEngine { s.eng with err := true, errCode := .illegalCmd }) ∧
      step (s.withScript (.issue c :: rest)) ≠ .next (s.withScript rest))

/-- R84, R87: a program of commands emits their codes in order, and the codes decode back to the commands. -/
def Obligations.CommandProgramsRoundTrip : Prop :=
  ∀ commands : List Instr,
    programEncoding (commands.map .cmd) = some (commands.map encode) ∧
    (commands.map encode).map decodeWord = commands.map .cmd

/-- R87: a program has an encoding exactly when its repeats nest and each has a count of at least 1, and `.rep n` to
`.endr` repeats the lines between them `n` times, wherever it stands. -/
def Obligations.RepeatsExpandExactlyWhenWellFormed : Prop :=
  (∀ lines : List AsmLine, (programEncoding lines).isSome = wellFormedProgram lines) ∧
  (∀ (before body after : List AsmLine) (u v w : List CmdWord) (n : Nat), 1 ≤ n →
    programEncoding before = some u → programEncoding body = some v → programEncoding after = some w →
    programEncoding (before ++ .rep n :: body ++ .endr :: after) = some (u ++ (List.replicate n v).flatten ++ w))

/-- R87: a mnemonic alone on its line is its command, also with a comment after it; `RESET`, `.raw`, `.rep` and `.endr`
are what R87 says, the count of `.rep` read in decimal, as the spec's programs write it (log entry 6). The third clause,
that a line holding a comment alone reads as no item, is the model's choice of log entry 6 (DESIGN CHOICE): R87 is
silent on lines with no item. -/
def Obligations.LinesReadAsTheSyntaxSays : Prop :=
  (∀ i : Instr, parseLine i.mnemonic.toList = some (.cmd i)) ∧
  (∀ (i : Instr) (text : List Char), parseLine (i.mnemonic.toList ++ ' ' :: ';' :: text) = some (.cmd i)) ∧
  (∀ text : List Char, parseLine (';' :: text) = some .blank) ∧
  parseLine "RESET".toList = some .reset ∧ parseLine ".endr".toList = some .endr ∧
  parseLine ".raw 0x30".toList = some (.raw 0x30) ∧ parseLine ".rep 12".toList = some (.rep 12)

-- ==== Steps and the host ====

/-- R80, R86: a code presented on `cmd` that decodes to a command is performed as one step, which is `exec` of that
command in the state whose remaining host moves follow. -/
def Obligations.StepRunsThePresentedCommand : Prop :=
  (∀ (s : State) (code : CmdWord) (i : Instr) (rest : List (HostMove s.cfg)),
    decodeWord code = .cmd i → step (s.withScript (.issue code :: rest)) = exec i (s.withScript rest)) ∧
  (∀ (s : State) (w : Nat) (i : Instr), decodeTableWord 8 w = some i → step (s.withFetchWord 8 w) = exec i s)

/-- R80, R288: every run of steps answers a next state, and the build never changes (R6). -/
def Obligations.EveryRunCompletes : Prop :=
  ∀ (k : Nat) (s : State), ∃ t, runSteps k s = .next t ∧ t.cfg = s.cfg

/-- R66: reading the outputs changes nothing, however often, and driving `msg_in` changes only `msg_in` and no output. -/
def Obligations.ReadingAndDrivingChangeNoRegister : Prop :=
  (∀ (s : State) (n : Nat) (rest : List (HostMove s.cfg)),
    runSteps n (s.withScript (List.replicate n .read ++ rest)) = .next (s.withScript rest)) ∧
  (∀ (s : State) (m : BitVec s.cfg.msgBits) (rest : List (HostMove s.cfg)),
    step (s.withScript (.drive m :: rest)) = .next ((s.withScript rest).withMsgIn m) ∧
    ((s.withScript rest).withMsgIn m).observation = s.observation)

/-- R283: LOAD and HASH sample `msg_in`; over any other moves the registers do not depend on `msg_in`. -/
def Obligations.MessageIsSampledOnlyByLoadAndHash : Prop :=
  (∀ s : State, s.eng.err = false → s.eng.phase = .idle ∨ s.eng.phase = .done →
    ∀ i : Instr, i = .load ∨ i = .hash →
      ∃ e : Engine s.cfg, exec i s = .next (s.withEngine e) ∧ e.msg = s.msgIn) ∧
  (∀ (k : Nat) (c : Config) (e : Engine c) (m n : BitVec c.msgBits) (moves : List (HostMove c)),
    (∀ move ∈ moves.take k, move.samplesMessage = false) →
    ∃ (f : Engine c) (p q : BitVec c.msgBits),
      runSteps k ⟨c, e, m, moves⟩ = .next ⟨c, f, p, moves.drop k⟩ ∧
      runSteps k ⟨c, e, n, moves⟩ = .next ⟨c, f, q, moves.drop k⟩)

-- ==== Reset, power-up, control ====

/-- R280: `rst`, alone or together with any command, sets every register to its reset value from every state, and
leaves the host's side alone; so does a build's reset state. -/
def Obligations.ResetSetsEveryRegister : Prop :=
  (∀ (s : State) (withCmd : Option CmdWord) (rest : List (HostMove s.cfg)),
    ∃ e : Engine s.cfg, step (s.withScript (.reset withCmd :: rest)) = .next ((s.withScript rest).withEngine e) ∧
      (∀ x y, e.array.lane x y = 0) ∧ e.rnd = 0 ∧ e.blk = 0 ∧ e.phase = .idle ∧ e.err = false ∧
      e.errCode = .none ∧ e.msg = 0 ∧ e.dig = 0 ∧
      e.statusWord = 0 ∧ (s.withEngine e).digest = 0 ∧ (s.withEngine e).stateOut = 0 ∧
      exec .init s = .next (s.withEngine e) ∧ e = (State.resetOf s.cfg).eng) ∧
  State.reset = State.resetOf State.reset.cfg

/-- R282, R221, R48: whatever the registers hold at power-up, `rst` or INIT, then driving `msg_in`, then HASH, or LOAD
with NBLK ABSORBs and SQUEEZE, leaves PHASE = DONE, ERR = 0, the Keccak-256 digest of the driven message and the
invariants. `draw` is any value of the registers' types: every draw of R282, where ERRCODE is one of its three codes
(log entry 5), and values of BLK past NBLK too. -/
def Obligations.BootFromAnyPowerUpState : Prop :=
  ∀ (c : Config) (draw : Engine c) (pins m : BitVec c.msgBits) (start : HostMove c) (codes : List CmdWord),
    (start = .reset none ∨ start = .issue 0x01) →
    (codes = [0x23] ∨ codes = 0x20 :: (List.replicate (nblk c.msgBits) 0x21 ++ [0x22])) →
    ∃ e : Engine c,
      runSteps (codes.length + 2) ⟨c, draw, pins, start :: .drive m :: issueAll codes⟩ = .next ⟨c, e, m, []⟩ ∧
      e.DigestValid ∧ e.dig = keccak256 m ∧ e.Inv

/-- R240: NOP changes nothing in any state, and any number of NOPs before a later command change nothing it sees. -/
def Obligations.NopChangesNothing : Prop :=
  decodeWord 0x00 = .cmd .nop ∧ (∀ s : State, exec .nop s = .next s) ∧
  (∀ (s : State) (n : Nat) (rest : List (HostMove s.cfg)),
    runSteps n (s.withScript (issueAll (List.replicate n 0x00) ++ rest)) = .next (s.withScript rest)) ∧
  (∀ c : Config, ∃ t, exec .nop (State.resetOf c) = .next t ∧ t.status = 0)

/-- R241: INIT returns every register to its reset value in every phase and with ERR at 1; while ERR = 1 no other command
changes anything, so no other one clears the error. -/
def Obligations.InitReturnsEveryRegister : Prop :=
  decodeWord 0x01 = .cmd .init ∧
  (∀ s : State, exec .init s = .next (s.withEngine
    { array := StateArray.zero, rnd := 0, blk := 0, phase := .idle, err := false, errCode := .none,
      msg := 0, dig := 0 })) ∧
  (∀ (i : Instr) (s : State), s.eng.err = true → i ≠ .init → exec i s = .next s) ∧
  (∀ c : Config, ∃ t u, exec .absorb (State.resetOf c) = .next t ∧ t.status = 0x24 ∧
    exec .init t = .next u ∧ u.status = 0)

-- ==== Permutation commands ====

/-- R150 (with R142 and R113): THETA is refused outside IDLE; in IDLE bit z of lane (x, y) is XORed with the parity of
column x - 1 at z and of column x + 1 at z - 1, and no other register changes. -/
def Obligations.ThetaMixesColumnParities : Prop :=
  decodeWord 0x10 = .cmd .theta ∧
  (∀ s : State, s.eng.err = false → s.eng.phase ≠ .idle → exec .theta s = s.badPhase) ∧
  (∀ s : State, s.eng.err = false → s.eng.phase = .idle →
    ∃ e : Engine s.cfg, exec .theta s = .next (s.withEngine e) ∧ e = { s.eng with array := e.array } ∧
      ∀ x y z, z < 64 → (e.array.lane x y).getLsbD z =
        xor1 ((s.eng.array.lane x y).getLsbD z)
          (xor1 (parityBit s.eng.array (x - 1) z) (parityBit s.eng.array (x + 1) ((z + 63) % 64)))) ∧
  theta StateArray.zero = StateArray.zero ∧ theta onesArray = onesArray ∧
  (∀ c : Config, ∃ t, exec .theta (State.resetOf c) = .next t ∧ t.eng.array = StateArray.zero ∧ t.status = 0)

/-- R151 (with R143 and R113): RHO is refused outside IDLE; in IDLE bit z of lane (x, y) is the old bit z - RHO[x][y]
of that lane, lane (0, 0) is unchanged, and no other register changes. -/
def Obligations.RhoRotatesEachLane : Prop :=
  decodeWord 0x11 = .cmd .rho ∧
  (∀ s : State, s.eng.err = false → s.eng.phase ≠ .idle → exec .rho s = s.badPhase) ∧
  (∀ s : State, s.eng.err = false → s.eng.phase = .idle →
    ∃ e : Engine s.cfg, exec .rho s = .next (s.withEngine e) ∧ e = { s.eng with array := e.array } ∧
      e.array.lane 0 0 = s.eng.array.lane 0 0 ∧
      ∀ x y z, z < 64 → (e.array.lane x y).getLsbD z =
        (s.eng.array.lane x y).getLsbD ((z + 64 - (rhoOffset x y).val) % 64)) ∧
  (∀ x y, (rho (StateArray.ofLanes fun _ _ => 1)).lane x y = BitVec.ofNat 64 (2 ^ (rhoOffset x y).val))

/-- R152 (with R144): PI is refused outside IDLE; in IDLE lane (x, y) takes the old lane (x + 3y, x), so old lane (x, y)
moves to (y, 2x + 3y); no other register changes; 24 times PI is the identity. -/
def Obligations.PiRelabelsTheLanes : Prop :=
  decodeWord 0x12 = .cmd .pi ∧
  (∀ s : State, s.eng.err = false → s.eng.phase ≠ .idle → exec .pi s = s.badPhase) ∧
  (∀ s : State, s.eng.err = false → s.eng.phase = .idle →
    ∃ e : Engine s.cfg, exec .pi s = .next (s.withEngine e) ∧ e = { s.eng with array := e.array } ∧
      e.array.lane 0 0 = s.eng.array.lane 0 0 ∧
      ∀ x y : Fin 5, e.array.lane x y = s.eng.array.lane (x + 3 * y) x ∧
        e.array.lane y (2 * x + 3 * y) = s.eng.array.lane x y) ∧
  (∀ A : StateArray, Nat.iterate pi 24 A = A) ∧
  (pi tagArray).lane 1 0 = 6 ∧ (pi tagArray).lane 0 1 = 3 ∧ (pi tagArray).lane 0 2 = 1

/-- R153 (with R145): CHI is refused outside IDLE; in IDLE bit z of lane (x, y) is XORed with the AND of NOT lane
(x + 1, y) and lane (x + 2, y) of the input; no other register changes; the all-zero and all-ones states are fixed. -/
def Obligations.ChiMixesRows : Prop :=
  decodeWord 0x13 = .cmd .chi ∧
  (∀ s : State, s.eng.err = false → s.eng.phase ≠ .idle → exec .chi s = s.badPhase) ∧
  (∀ s : State, s.eng.err = false → s.eng.phase = .idle →
    ∃ e : Engine s.cfg, exec .chi s = .next (s.withEngine e) ∧ e = { s.eng with array := e.array } ∧
      ∀ x y z, z < 64 → (e.array.lane x y).getLsbD z =
        xor1 ((s.eng.array.lane x y).getLsbD z)
          (and1 (not1 ((s.eng.array.lane (x + 1) y).getLsbD z)) ((s.eng.array.lane (x + 2) y).getLsbD z))) ∧
  chi StateArray.zero = StateArray.zero ∧ chi onesArray = onesArray ∧
  (let row : StateArray := ⟨⟨0x5555555555555555, 0, 0, 0, 0⟩, ⟨0xFFFFFFFFFFFFFFFF, 0, 0, 0, 0⟩,
      ⟨0x00000000FFFFFFFF, 0, 0, 0, 0⟩, ⟨0, 0, 0, 0, 0⟩, ⟨0, 0, 0, 0, 0⟩⟩
   chi row = ⟨⟨0x5555555555555555, 0, 0, 0, 0⟩, ⟨0xFFFFFFFFFFFFFFFF, 0, 0, 0, 0⟩,
      ⟨0x00000000FFFFFFFF, 0, 0, 0, 0⟩, ⟨0x5555555555555555, 0, 0, 0, 0⟩, ⟨0xAAAAAAAAAAAAAAAA, 0, 0, 0, 0⟩⟩)

/-- R154 (with R146): IOTA is refused outside IDLE; in IDLE RC[RND] is XORed into lane (0, 0) only, RND advances modulo
24, and no other register changes. -/
def Obligations.IotaInjectsTheRoundConstant : Prop :=
  decodeWord 0x14 = .cmd .iota ∧
  (∀ s : State, s.eng.err = false → s.eng.phase ≠ .idle → exec .iota s = s.badPhase) ∧
  (∀ s : State, s.eng.err = false → s.eng.phase = .idle →
    ∃ e : Engine s.cfg, exec .iota s = .next (s.withEngine e) ∧ e = { s.eng with array := e.array, rnd := e.rnd } ∧
      e.array.lane 0 0 = s.eng.array.lane 0 0 ^^^ roundConstant s.eng.rnd ∧
      (∀ x y, (x, y) ≠ (0, 0) → e.array.lane x y = s.eng.array.lane x y) ∧
      e.rnd.val = (s.eng.rnd.val + 1) % 24 ∧ (s.eng.rnd = 23 → e.rnd = 0)) ∧
  (∀ c : Config, ∃ t, exec .iota (State.resetOf c) = .next t ∧ t.eng.array.lane 0 0 = 1 ∧ t.eng.rnd = 1 ∧
    t.status = 0x100)

/-- R155 (with R147): ROUND is refused outside IDLE; in IDLE it does exactly what THETA; RHO; PI; CHI; IOTA do; 24 of
them from RND = 0 are the permutation and leave RND = 0; and the worked example from reset. -/
def Obligations.RoundIsTheFiveStepsInOrder : Prop :=
  decodeWord 0x15 = .cmd .round ∧
  (∀ s : State, s.eng.err = false → s.eng.phase ≠ .idle → exec .round s = s.badPhase) ∧
  (∀ s : State, s.eng.err = false → s.eng.phase = .idle →
    exec .round s = .next (s.withEngine
      { s.eng with
        array := iota (chi (pi (rho (theta s.eng.array)))) s.eng.rnd
        rnd := if s.eng.rnd = 23 then 0 else s.eng.rnd + 1 })) ∧
  (∀ (s : State) (rest : List (HostMove s.cfg)), s.eng.err = false → s.eng.phase = .idle →
    runSteps 5 (s.withScript (issueAll [0x10, 0x11, 0x12, 0x13, 0x14] ++ rest)) =
      step (s.withScript (.issue 0x15 :: rest))) ∧
  (∀ (s : State) (rest : List (HostMove s.cfg)), s.eng.err = false → s.eng.phase = .idle → s.eng.rnd = 0 →
    runSteps 24 (s.withScript (issueAll (List.replicate 24 0x15) ++ rest)) =
      .next ((s.withScript rest).withEngine { s.eng with array := keccakF s.eng.array })) ∧
  (∀ c : Config, ∃ t u, exec .round (State.resetOf c) = .next t ∧ t.eng.array.lane 0 0 = 1 ∧ t.eng.rnd = 1 ∧
    exec .round t = .next u ∧ u.eng.rnd = 2 ∧
    u.eng.array =
      ⟨⟨0x0000000000008083, 0, 0x0000000000000002, 0x0000000010000400, 0x0000010000000000⟩,
       ⟨0x0000100000000000, 0x0000200000200000, 0x0000000000000200, 0, 0⟩,
       ⟨0x0000000000008000, 0, 0, 0x0000000000000400, 0x0000010000000004⟩,
       ⟨0x0000000000000001, 0x0000200000000000, 0x0000000000000202, 0x0000000010000000, 0⟩,
       ⟨0x0000100000008000, 0x0000000000200000, 0, 0, 0x0000000000000004⟩⟩)

/-- R156: PERMUTE is refused outside IDLE; in IDLE it performs rounds RND to 23 in order and leaves RND at 0, so with
RND = 0 it is the permutation, and after k ROUNDs from RND = 0 it completes the permutation they began. -/
def Obligations.PermutePerformsTheRemainingRounds : Prop :=
  decodeWord 0x16 = .cmd .permute ∧
  (∀ s : State, s.eng.err = false → s.eng.phase ≠ .idle → exec .permute s = s.badPhase) ∧
  (∀ s : State, s.eng.err = false → s.eng.phase = .idle →
    exec .permute s = .next (s.withEngine
      { s.eng with
        array := ((List.finRange 24).drop s.eng.rnd.val).foldl keccakRound s.eng.array
        rnd := 0 }) ∧
    (s.eng.rnd = 0 → exec .permute s = .next (s.withEngine { s.eng with array := keccakF s.eng.array })) ∧
    (s.eng.rnd = 23 →
      exec .permute s = .next (s.withEngine { s.eng with array := keccakRound s.eng.array 23, rnd := 0 }))) ∧
  (∀ (s : State) (k : Nat) (rest : List (HostMove s.cfg)), k < 24 →
    s.eng.err = false → s.eng.phase = .idle → s.eng.rnd = 0 →
    runSteps (k + 1) (s.withScript (issueAll (List.replicate k 0x15 ++ [0x16]) ++ rest)) =
      .next ((s.withScript rest).withEngine { s.eng with array := keccakF s.eng.array }))

/-- R148: the permutation is rounds 0 to 23 applied in order; of the zero state its lane (0, 0) is the spec's value. -/
def Obligations.PermutationIsRoundsZeroToTwentyThree : Prop :=
  (∀ A : StateArray, keccakF A = (List.finRange 24).foldl keccakRound A) ∧
  (keccakF StateArray.zero).lane 0 0 = 0xF1258F7940E1DDE7

/-- R142 (derived in it): θ is linear. -/
def Obligations.ThetaIsLinear : Prop :=
  ∀ A B : StateArray,
    theta (StateArray.ofLanes fun x y => A.lane x y ^^^ B.lane x y) =
      StateArray.ofLanes fun x y => (theta A).lane x y ^^^ (theta B).lane x y

-- ==== Utilities ====

/-- R113: left rotation bit by bit and as a number, its composition law and its corner cases. -/
def Obligations.RotationMovesBitsUp : Prop :=
  (∀ (v : Lane) (n : Fin 64) (z : Nat), z < 64 → (rotl64 v n).getLsbD z = v.getLsbD ((z + 64 - n.val) % 64)) ∧
  (∀ v : Lane, rotl64 v 0 = v) ∧
  (∀ (v : Lane) (n : Fin 64), 1 ≤ n.val →
    (rotl64 v n).toNat = ((v.toNat <<< n.val) ||| (v.toNat >>> (64 - n.val))) % 2 ^ 64) ∧
  (∀ (v : Lane) (a b : Fin 64), rotl64 (rotl64 v a) b = rotl64 v (a + b)) ∧
  (∀ n : Fin 64, rotl64 0 n = 0 ∧ rotl64 0xFFFFFFFFFFFFFFFF n = 0xFFFFFFFFFFFFFFFF) ∧
  (∀ v : Lane, rotl64 v 63 = v.rotateRight 1) ∧
  rotl64 0x8000000000000000 1 = 1 ∧ (∀ x y, (rhoOffset x y).val ≤ 62)

/-- R114, R115, R116: packing is the number Σ b[z]·2^z, unpacking is shift and mask, and the two are inverse. -/
def Obligations.PackingIsLossless : Prop :=
  (∀ b : Nat → Bool, (packLane b).toNat = ∑ z ∈ Finset.range 64, (b z).toNat * 2 ^ z) ∧
  (∀ (v : Lane) (z : Nat), z < 64 → (unpackLane v z).toNat = ((v >>> z) &&& 1).toNat) ∧
  (∀ v : Lane, packLane (unpackLane v) = v) ∧
  (∀ (b : Nat → Bool) (z : Nat), z < 64 → unpackLane (packLane b) z = b z) ∧
  packLane (fun z => z == 0 || z == 1) = 3 ∧
  (∀ z, z < 64 → unpackLane 0x8000000000000000 z = (z == 63))

/-- R117: lane (x, y) is packed from the 64 bits at `64 * (5y + x)`, and the two conversions are inverse. -/
def Obligations.StatePackingIsLossless : Prop :=
  (∀ (s : BitVec 1600) (x y : Fin 5),
    (stateFromBits s).lane x y = packLane fun z => s.getLsbD (64 * (5 * y.val + x.val) + z)) ∧
  (∀ (A : StateArray) (i : Nat), i < 1600 → (bitsFromState A).getLsbD i = sbit A i) ∧
  (∀ A : StateArray, stateFromBits (bitsFromState A) = A) ∧
  (∀ s : BitVec 1600, bitsFromState (stateFromBits s) = s)

/-- R119: the flattened index of (x, y, z) is `64 * (5y + x) + z`, with the rule's examples. -/
def Obligations.FlattenedIndexOfEachBit : Prop :=
  ∀ A : StateArray,
    (∀ (x y : Fin 5) (z : Nat), z < 64 → sbit A (64 * (5 * y.val + x.val) + z) = (A.lane x y).getLsbD z) ∧
    (∀ i, i < 1600 → sbit A i = (bitsFromState A).getLsbD i) ∧
    sbit A 0 = (A.lane 0 0).getLsbD 0 ∧ sbit A 64 = (A.lane 1 0).getLsbD 0 ∧ sbit A 320 = (A.lane 0 1).getLsbD 0 ∧
    sbit A 1087 = (A.lane 1 3).getLsbD 63 ∧ sbit A 1088 = (A.lane 2 3).getLsbD 0 ∧
    sbit A 1599 = (A.lane 4 4).getLsbD 63

/-- R120, R211: XorPrefix changes the first `n` flattened bits by XOR and no other bit, so with a block the eight
capacity lanes are unchanged. -/
def Obligations.XorPrefixLeavesTheRestAlone : Prop :=
  (∀ (n : Nat) (A : StateArray) (v : BitVec n) (i : Nat), 1 ≤ n → n ≤ 1600 → i < 1600 →
    sbit (xorPrefix A v) i = if i < n then xor1 (sbit A i) (v.getLsbD i) else sbit A i) ∧
  (∀ (A : StateArray) (v : BitVec 1088) (x y : Fin 5), 17 ≤ 5 * y.val + x.val →
    (xorPrefix A v).lane x y = A.lane x y) ∧
  (let v : BitVec 1088 := ofBits 1088 fun k => k == 0 || k == 1 || k == 1087
   ∀ x y : Fin 5, (xorPrefix StateArray.zero v).lane x y =
    if (x, y) = (0, 0) then 3 else if (x, y) = (1, 3) then 0x8000000000000000 else 0)

/-- R213, R47: digest bit `64x + z` is bit z of lane (x, 0), the flattened bit of the same index. -/
def Obligations.DigestIsTheFirstFourLanes : Prop :=
  ∀ A : StateArray,
    (∀ i, i < 256 → (squeeze A).getLsbD i = sbit A i) ∧
    (∀ (x : Fin 5) (z : Nat), x.val < 4 → z < 64 → (squeeze A).getLsbD (64 * x.val + z) = (A.lane x 0).getLsbD z)

-- ==== Padding ====

/-- R7, R191: PADDED_LEN = NBLK · R is the least multiple of R that is at least L + 2, and NBLK is in 1..65535 for
every legal L. -/
def Obligations.BlockCountIsMinimal : Prop :=
  (∀ L : Nat, nblk L = (L + 1089) / 1088 ∧ paddedLen L = nblk L * 1088 ∧ L + 2 ≤ paddedLen L ∧
    ∀ n, L + 2 ≤ n * 1088 → paddedLen L ≤ n * 1088) ∧
  (∀ c : Config, 1 ≤ nblk c.msgBits ∧ nblk c.msgBits ≤ 65535)

/-- R194: the number of pad bits is in [2, 1089], at its ends exactly for L mod R = R - 2 and R - 1. -/
def Obligations.PadLengthRange : Prop :=
  ∀ L : Nat, 2 ≤ paddedLen L - L ∧ paddedLen L - L ≤ 1089 ∧
    (paddedLen L - L = 1089 ↔ L % 1088 = 1087) ∧ (paddedLen L - L = 2 ↔ L % 1088 = 1086)

/-- R193, R212: the boundary cases by r = L mod R, and the block counts of the shorter messages. -/
def Obligations.PadBoundaryCases : Prop :=
  ∀ L : Nat,
    (L % 1088 = 0 → paddedLen L - L = 1088 ∧ nblk L = L / 1088 + 1) ∧
    (1 ≤ L % 1088 → L % 1088 ≤ 1086 → paddedLen L - L = 1088 - L % 1088 ∧ nblk L = (L + 1087) / 1088) ∧
    (L % 1088 = 1087 → paddedLen L - L = 1089 ∧ nblk L = (L + 1087) / 1088 + 1) ∧
    (nblk L = 1 ↔ L ≤ 1086) ∧ (nblk L = 2 ↔ 1087 ≤ L ∧ L ≤ 2174) ∧ (nblk L = 3 ↔ 2175 ≤ L ∧ L ≤ 3262)

/-- R192: every bit of the padded message. -/
def Obligations.PaddedMessageBits : Prop :=
  ∀ (L : Nat) (m : BitVec L),
    (∀ j, j < L → (pad m).getLsbD j = m.getLsbD j) ∧
    (pad m).getLsbD L = true ∧
    (∀ j, L + 1 ≤ j → j + 2 ≤ paddedLen L → (pad m).getLsbD j = false) ∧
    (pad m).getLsbD (paddedLen L - 1) = true ∧ L < paddedLen L - 1

/-- R195: block b holds the padded bits from `b * 1088` on, the last block ends in a 1, and the first pad bit lies in
block `L div R`, which is the last block, or the one before it when L mod R = R - 1. -/
def Obligations.BlocksCutThePaddedMessage : Prop :=
  ∀ (L : Nat) (m : BitVec L),
    (∀ b k, b < nblk L → k < 1088 → (block m b).getLsbD k = (pad m).getLsbD (b * 1088 + k)) ∧
    (block m (nblk L - 1)).getLsbD 1087 = true ∧
    (block m (L / 1088)).getLsbD (L % 1088) = true ∧
    (L / 1088 = if L % 1088 = 1087 then nblk L - 2 else nblk L - 1)

/-- R197: the padding state machine emits exactly PADDED_LEN bits, they are Pad(M) in order, it then stays in END and
emits nothing, and it skips FILL exactly when L mod R = R - 2. -/
def Obligations.PadMachineEmitsThePaddedMessage : Prop :=
  ∀ (L : Nat) (m : BitVec L), 1 ≤ L →
    (∀ k, padOutput m (paddedLen L + k) padStart = (List.range (paddedLen L)).map fun j => (pad m).getLsbD j) ∧
    ((∀ n, (Nat.iterate (padNext L) n padStart).state ≠ .fill) ↔ L % 1088 = 1086)

/-- R198: under the byte convention the first pad bit of a whole number of bytes makes the byte 0x01, the final pad bit
makes 0x80, and 0x81 where both fall in one byte. -/
def Obligations.ByteAlignedPadding : Prop :=
  ∀ (n : Nat) (m : BitVec (8 * n)),
    let first := (pad m).extractLsb' (8 * n) 8
    let last := (pad m).extractLsb' (paddedLen (8 * n) - 8) 8
    (n + 1 = paddedLen (8 * n) / 8 → first = 0x81 ∧ last = 0x81) ∧
    (n + 1 ≠ paddedLen (8 * n) / 8 → first = 0x01 ∧ last = 0x80)

-- ==== Sponge commands ====

/-- R217: LOAD is refused in ABSORB and SQUEEZE; in IDLE and DONE it latches `msg_in`, clears S, RND and BLK, enters
ABSORB, and keeps DIG. -/
def Obligations.LoadLatchesTheMessage : Prop :=
  decodeWord 0x20 = .cmd .load ∧
  (∀ s : State, s.eng.err = false → s.eng.phase = .absorb ∨ s.eng.phase = .squeeze → exec .load s = s.badPhase) ∧
  (∀ s : State, s.eng.err = false → s.eng.phase = .idle ∨ s.eng.phase = .done →
    exec .load s = .next (s.withEngine
      { array := StateArray.zero, rnd := 0, blk := 0, phase := .absorb, err := false, errCode := s.eng.errCode,
        msg := s.msgIn, dig := s.eng.dig })) ∧
  (∀ c : Config, ∃ t, exec .load (State.resetOf c) = .next t ∧ t.status = 1)

/-- R218, R211: ABSORB is refused outside ABSORB; in ABSORB, where BLK < NBLK, it XORs block BLK into S, permutes,
counts the block, and enters SQUEEZE after the last one; RND, M and DIG are unchanged. -/
def Obligations.AbsorbTakesTheNextBlock : Prop :=
  decodeWord 0x21 = .cmd .absorb ∧
  (∀ s : State, s.eng.err = false → s.eng.phase ≠ .absorb → exec .absorb s = s.badPhase) ∧
  (∀ s : State, s.eng.err = false → s.eng.phase = .absorb → s.eng.blk.toNat < nblk s.cfg.msgBits →
    ∃ e : Engine s.cfg, exec .absorb s = .next (s.withEngine e) ∧
      e = { s.eng with array := e.array, blk := e.blk, phase := e.phase } ∧
      e.array = keccakF (xorPrefix s.eng.array (block s.eng.msg s.eng.blk.toNat)) ∧
      e.blk.toNat = s.eng.blk.toNat + 1 ∧
      e.phase = if s.eng.blk.toNat + 1 = nblk s.cfg.msgBits then .squeeze else .absorb) ∧
  (∀ s : State, s.eng.Inv → s.eng.phase = .absorb → s.eng.rnd = 0 ∧ s.eng.blk.toNat < nblk s.cfg.msgBits) ∧
  (∃ t u : State,
    exec .load ((State.resetOf ⟨1, by decide⟩).withMsgIn 1#1) = .next t ∧ exec .absorb t = .next u ∧
    u.eng.array.lane 0 0 = 0x4AFF58B51D129E1F ∧ u.eng.blk = 1 ∧ u.eng.phase = .squeeze ∧ u.status = 0x00010002)

/-- The model's own choice (log entry 4), no rule of the spec: with BLK at or past NBLK, which only an engine not
yet reset can hold in phase ABSORB, ABSORB completes with free bits for the block, and everything else is as R218
says. -/
def Obligations.AbsorbPastTheLastBlockCompletes : Prop :=
  ∀ s : State, s.eng.err = false → s.eng.phase = .absorb → nblk s.cfg.msgBits ≤ s.eng.blk.toNat →
    ∃ e : Engine s.cfg, exec .absorb s = .next (s.withEngine e) ∧
      e = { s.eng with array := e.array, blk := s.eng.blk + 1, phase := .absorb } ∧
      e.array = keccakF (xorPrefix s.eng.array (Config.blockPastEnd s.cfg.msgBits s.eng.msg s.eng.blk.toNat))

/-- R219: SQUEEZE is refused outside SQUEEZE; in SQUEEZE DIG takes bits 0..255 of S and the phase is DONE; S, RND, BLK
and M are unchanged; a second SQUEEZE is refused. -/
def Obligations.SqueezeExtractsTheDigest : Prop :=
  decodeWord 0x22 = .cmd .squeeze ∧
  (∀ s : State, s.eng.err = false → s.eng.phase ≠ .squeeze → exec .squeeze s = s.badPhase) ∧
  (∀ s : State, s.eng.err = false → s.eng.phase = .squeeze →
    ∃ e : Engine s.cfg, exec .squeeze s = .next (s.withEngine e) ∧
      e = { s.eng with dig := e.dig, phase := .done } ∧
      (∀ i, i < 256 → e.dig.getLsbD i = sbit s.eng.array i) ∧
      exec .squeeze (s.withEngine e) = (s.withEngine e).badPhase) ∧
  (∃ t u v : State,
    exec .load ((State.resetOf ⟨1, by decide⟩).withMsgIn 1#1) = .next t ∧ exec .absorb t = .next u ∧
    exec .squeeze u = .next v ∧ v.status = 0x00010003 ∧
    v.digest = 0xE4CC5B2AC827D67E86C597232268C9E8A97AB4486ED011614AFF58B51D129E1F)

/-- R220: HASH is refused in ABSORB and SQUEEZE; in IDLE and DONE it hashes `msg_in` in one step; a second HASH of the
same `msg_in` leaves the same registers; and the rule's example. -/
def Obligations.HashIsTheWholeHash : Prop :=
  decodeWord 0x23 = .cmd .hash ∧
  (∀ s : State, s.eng.err = false → s.eng.phase = .absorb ∨ s.eng.phase = .squeeze → exec .hash s = s.badPhase) ∧
  (∀ s : State, s.eng.err = false → s.eng.phase = .idle ∨ s.eng.phase = .done →
    ∃ e : Engine s.cfg, exec .hash s = .next (s.withEngine e) ∧
      e.msg = s.msgIn ∧ e.array = absorb s.msgIn ∧ e.rnd = 0 ∧ e.blk.toNat = nblk s.cfg.msgBits ∧
      e.dig = keccak256 s.msgIn ∧ e.phase = .done ∧ e.err = false ∧ e.errCode = s.eng.errCode ∧
      exec .hash (s.withEngine e) = .next (s.withEngine e)) ∧
  (∃ t : State, exec .hash ((State.resetOf ⟨256, by decide⟩).withMsgIn 0) = .next t ∧ t.status = 0x00010003 ∧
    bytesOfDigest t.digest =
      [0x29, 0x0d, 0xec, 0xd9, 0x54, 0x8b, 0x62, 0xa8, 0xd6, 0x03, 0x45, 0xa9, 0x88, 0x38, 0x6f, 0xc8,
       0x4b, 0xa6, 0xbc, 0x95, 0x48, 0x40, 0x08, 0xf6, 0x36, 0x2f, 0x93, 0x16, 0x0e, 0xf3, 0xe5, 0x63])

/-- R221: LOAD, NBLK ABSORBs and SQUEEZE leave exactly what HASH leaves; fewer ABSORBs leave PHASE at ABSORB; one more
raises BAD_PHASE. -/
def Obligations.StepwiseHashEqualsAtomicHash : Prop :=
  ∀ (s : State) (rest : List (HostMove s.cfg)), s.eng.err = false → s.eng.phase = .idle ∨ s.eng.phase = .done →
    (runSteps (nblk s.cfg.msgBits + 2)
        (s.withScript (issueAll (0x20 :: (List.replicate (nblk s.cfg.msgBits) 0x21 ++ [0x22])) ++ rest)) =
      exec .hash (s.withScript rest)) ∧
    (∃ e : Engine s.cfg, exec .hash (s.withScript rest) = .next ((s.withScript rest).withEngine e) ∧
      e.dig = keccak256 s.msgIn ∧ e.array = absorb s.msgIn ∧ e.blk.toNat = nblk s.cfg.msgBits ∧ e.rnd = 0 ∧
      e.phase = .done ∧ e.msg = s.msgIn) ∧
    (∀ k, k < nblk s.cfg.msgBits →
      ∃ e : Engine s.cfg,
        runSteps (k + 1) (s.withScript (issueAll (0x20 :: List.replicate k 0x21) ++ rest)) =
          .next ((s.withScript rest).withEngine e) ∧
        e.phase = .absorb ∧ e.err = false ∧ e.blk.toNat = k ∧ e.array = absorbPrefix s.msgIn k ∧
        exec .squeeze ((s.withScript rest).withEngine e) = ((s.withScript rest).withEngine e).badPhase) ∧
    (∃ e : Engine s.cfg,
      runSteps (nblk s.cfg.msgBits + 2)
          (s.withScript (issueAll (0x20 :: List.replicate (nblk s.cfg.msgBits + 1) 0x21) ++ rest)) =
        .next ((s.withScript rest).withEngine e) ∧
      e.err = true ∧ e.errCode = .badPhase ∧ e.phase = .squeeze)

-- ==== Errors ====

/-- R252, R253: in a phase the table does not allow, a command raises BAD_PHASE and changes nothing else; in a phase it
allows, the command is performed and reports no error. -/
def Obligations.LegalityTableDecides : Prop :=
  (∀ p : Phase, legalIn .nop p ∧ legalIn .init p) ∧
  (∀ i ∈ [Instr.theta, .rho, .pi, .chi, .iota, .round, .permute], ∀ p, legalIn i p = true ↔ p = .idle) ∧
  (∀ i ∈ [Instr.load, .hash], ∀ p, legalIn i p = true ↔ p = .idle ∨ p = .done) ∧
  (∀ p, legalIn .absorb p = true ↔ p = .absorb) ∧ (∀ p, legalIn .squeeze p = true ↔ p = .squeeze) ∧
  (∀ (i : Instr) (s : State), s.eng.err = false →
    (legalIn i s.eng.phase = false → exec i s = s.badPhase) ∧
    (legalIn i s.eng.phase = true → ∃ e : Engine s.cfg, exec i s = .next (s.withEngine e) ∧ e.err = false))

/-- R255: while ERR = 1 every command but INIT, and every reserved code, changes no register; NOP changes none
anyway. -/
def Obligations.ErrorGateIgnoresCommands : Prop :=
  ∀ (s : State) (code : CmdWord) (rest : List (HostMove s.cfg)), s.eng.err = true → code ≠ 0x01 →
    step (s.withScript (.issue code :: rest)) = .next (s.withScript rest)

/-- R254: the checks in their order, for every code in every state, and `rst` before a command that arrives with it. -/
def Obligations.ChecksRunInOrder : Prop :=
  ∀ (s : State) (code : CmdWord) (rest : List (HostMove s.cfg)),
    (s.eng.err = true → code ≠ 0x00 → code ≠ 0x01 →
      step (s.withScript (.issue code :: rest)) = .next (s.withScript rest)) ∧
    (s.eng.err = false → decodeWord code = .reserved code →
      step (s.withScript (.issue code :: rest)) =
        .next ((s.withScript rest).withEngine { s.eng with err := true, errCode := .illegalCmd })) ∧
    (∀ i, decodeWord code = .cmd i → s.eng.err = false → legalIn i s.eng.phase = false →
      step (s.withScript (.issue code :: rest)) = (s.withScript rest).badPhase) ∧
    (∀ i, decodeWord code = .cmd i → s.eng.err = false → legalIn i s.eng.phase = true →
      ∃ e : Engine s.cfg, step (s.withScript (.issue code :: rest)) = .next ((s.withScript rest).withEngine e) ∧
        exec i s = .next (s.withEngine e) ∧ e.err = false) ∧
    (∀ i, decodeWord code = .cmd i → i = .nop ∨ i = .init →
      step (s.withScript (.issue code :: rest)) = exec i (s.withScript rest)) ∧
    step (s.withScript (.reset (some code) :: rest)) = .next (s.withScript rest).resetEngine

/-- R255, R256: once ERR is 1, no run of moves without `rst` and INIT changes any register. -/
def Obligations.ErrorIsStickyOverRuns : Prop :=
  ∀ (k : Nat) (c : Config) (e : Engine c) (m : BitVec c.msgBits) (moves : List (HostMove c)),
    e.err = true → (∀ move ∈ moves.take k, move.clearsError = false) →
    ∃ n : BitVec c.msgBits, runSteps k ⟨c, e, m, moves⟩ = .next ⟨c, e, n, moves.drop k⟩

/-- R256: ERR goes from 1 to 0 only by INIT or `rst`, and either one clears every other register too. -/
def Obligations.OnlyInitAndResetClearTheError : Prop :=
  (∀ s t : State, s.eng.err = true → step s = .next t → t.eng.err = false →
    ∃ move rest, s.script = move :: rest ∧ move.clearsError = true) ∧
  (∀ (s : State) (move : HostMove s.cfg) (rest : List (HostMove s.cfg)), move.clearsError = true →
    step (s.withScript (move :: rest)) = .next ((s.withScript rest).withEngine (Engine.reset s.cfg)))

-- ==== Frames ====

/-- R150 to R156, R252: on every path the permutation commands leave BLK, PHASE, M, DIG and the host's side alone, all
but IOTA, ROUND and PERMUTE leave RND alone, and ERR changes only outside IDLE, S only inside it. -/
def Obligations.FrameOfPermutationCommands : Prop :=
  ∀ (s : State), ∀ i ∈ [Instr.theta, .rho, .pi, .chi, .iota, .round, .permute],
    ∃ e : Engine s.cfg, exec i s = .next (s.withEngine e) ∧
      e.blk = s.eng.blk ∧ e.phase = s.eng.phase ∧ e.msg = s.eng.msg ∧ e.dig = s.eng.dig ∧
      (i ∈ [Instr.theta, .rho, .pi, .chi] → e.rnd = s.eng.rnd) ∧
      (s.eng.phase = .idle → e.err = s.eng.err ∧ e.errCode = s.eng.errCode) ∧
      (s.eng.phase ≠ .idle → e.array = s.eng.array ∧ e.rnd = s.eng.rnd)

/-- R217 to R220, R252: on every path LOAD and ABSORB leave DIG alone, ABSORB and SQUEEZE leave M and RND alone, SQUEEZE
leaves S and BLK alone, and each changes only registers of the engine. -/
def Obligations.FrameOfSpongeCommands : Prop :=
  ∀ s : State,
    (∃ e : Engine s.cfg, exec .load s = .next (s.withEngine e) ∧ e.dig = s.eng.dig) ∧
    (∃ e : Engine s.cfg, exec .absorb s = .next (s.withEngine e) ∧
      e.dig = s.eng.dig ∧ e.msg = s.eng.msg ∧ e.rnd = s.eng.rnd) ∧
    (∃ e : Engine s.cfg, exec .squeeze s = .next (s.withEngine e) ∧
      e.array = s.eng.array ∧ e.msg = s.eng.msg ∧ e.rnd = s.eng.rnd ∧ e.blk = s.eng.blk) ∧
    (∀ i ∈ [Instr.load, .absorb, .squeeze, .hash], legalIn i s.eng.phase = true →
      ∃ e : Engine s.cfg, exec i s = .next (s.withEngine e) ∧ e.err = s.eng.err ∧ e.errCode = s.eng.errCode)

-- ==== Status and invariants ====

/-- R40: every field of STATUS, the reserved bits, and its value after reset. -/
def Obligations.StatusWordFields : Prop :=
  (∀ (c : Config) (e : Engine c),
    e.statusWord.extractLsb' 0 2 = e.phase.bits ∧ e.statusWord.getLsbD 2 = e.err ∧
    e.statusWord.getLsbD 3 = false ∧ e.statusWord.extractLsb' 4 4 = e.errCode.bits ∧
    e.statusWord.extractLsb' 8 5 = BitVec.ofNat 5 e.rnd.val ∧ e.statusWord.extractLsb' 13 3 = 0 ∧
    e.statusWord.extractLsb' 16 16 = e.blk ∧ (e.statusWord.extractLsb' 4 4).toNat ≤ 2 ∧
    (e.statusWord.extractLsb' 8 5).toNat ≤ 23) ∧
  (∀ c : Config, (State.resetOf c).status = 0)

/-- R48: the invariants hold at reset and every step keeps them, from every state that meets them. -/
def Obligations.EveryStepKeepsTheInvariants : Prop :=
  (∀ c : Config, (Engine.reset c).Inv) ∧
  (∀ s t : State, s.eng.Inv → step s = .next t → t.eng.Inv)

/-- R48 at reset (R280). -/
def Obligations.ResetMeetsTheInvariants : Prop :=
  (∀ c : Config, (State.resetOf c).eng.Inv) ∧ State.reset.eng.Inv

/-- R34, R48 item 7: every step keeps BLK in 0..NBLK and ERR = 1 exactly with an error code, also where the other
invariants do not hold, but for an ABSORB of a power-up state that has no block left. -/
def Obligations.EveryStepKeepsTheRanges : Prop :=
  ∀ s t : State, s.eng.Ranges → (s.eng.phase = .absorb → s.eng.blk.toNat < nblk s.cfg.msgBits) →
    step s = .next t → t.eng.Ranges

/-- R48 items 5 and 6, R284: in every state that meets the invariants, DIG in phase DONE is the Keccak-256 digest of M. -/
def Obligations.DigestInDoneIsKeccak256 : Prop :=
  ∀ (c : Config) (e : Engine c), e.Inv → e.phase = .done → e.dig = keccak256 e.msg

-- ==== Building an engine ====

/-- R262, R149: an engine is built exactly for 1 ≤ L ≤ L_MAX with tables equal to R140 and R141, and the refusal names
the reason. -/
def Obligations.ElaborationRefusesBadBuilds : Prop :=
  ∀ (L : Nat) (constants : List Lane) (offsets : List (List Nat)),
    ((∃ c, elaborate L constants offsets = .next c ∧ c.msgBits = L) ↔
      1 ≤ L ∧ L ≤ 71302078 ∧ constants = rcTable ∧ offsets = rhoRows) ∧
    (L < 1 → elaborate L constants offsets = .refused (.elaboration .lengthTooSmall)) ∧
    (71302078 < L → elaborate L constants offsets = .refused (.elaboration .lengthTooLarge)) ∧
    (1 ≤ L → L ≤ 71302078 → (constants ≠ rcTable ∨ offsets ≠ rhoRows) →
      elaborate L constants offsets = .refused (.elaboration .tableMismatch)) ∧
    (∀ c : Config, 1 ≤ c.msgBits ∧ c.msgBits ≤ 71302078)

/-- R282: the registers at power-up are drawn from all values of their types with BLK in 0..NBLK and from no others, in
every build and whatever the host does; that ERRCODE's type has three codes is the model's reading of U7 (log entry 5).
The last clause says that the reset state is one such draw; that `State.resetOf` has zero on `msg_in` and no host move
pending is the model's choice (DESIGN CHOICE, log entry 2) and no rule of the spec. -/
def Obligations.PowerUpDrawsTheLegalValues : Prop :=
  (∀ (c : Config) (e : Engine c) (pins : BitVec c.msgBits) (moves : List (HostMove c)),
    e.blk.toNat ≤ nblk c.msgBits ↔ ∃ h : e.LegalDraw, State.powerUp c e h pins moves = ⟨c, e, pins, moves⟩) ∧
  (∀ (c : Config) (e : Engine c) (h : e.LegalDraw) (pins : BitVec c.msgBits) (moves : List (HostMove c)),
    (State.powerUp c e h pins moves).eng.rnd.val ≤ 23 ∧
    (State.powerUp c e h pins moves).eng.blk.toNat ≤ nblk c.msgBits) ∧
  (∀ c : Config, ∃ h : (Engine.reset c).LegalDraw, State.powerUp c (Engine.reset c) h 0 [] = State.resetOf c)
end

