-- ==== Sys2Proof/Laws/State.lean ====
section
/-! SUPPORT. One lemma per field per update of the state, each true by rfl, so that no proof unfolds a record update. -/

namespace Sys2Proof.Machine

variable (s : State)

@[simp] theorem State.withEngine_cfg (e : Engine s.cfg) : (s.withEngine e).cfg = s.cfg := rfl
@[simp] theorem State.withEngine_eng (e : Engine s.cfg) : (s.withEngine e).eng = e := rfl
@[simp] theorem State.withEngine_msgIn (e : Engine s.cfg) : (s.withEngine e).msgIn = s.msgIn := rfl
@[simp] theorem State.withEngine_script (e : Engine s.cfg) : (s.withEngine e).script = s.script := rfl
@[simp] theorem State.withEngine_self : s.withEngine s.eng = s := rfl

@[simp] theorem State.advance_cfg : s.advance.cfg = s.cfg := rfl
@[simp] theorem State.advance_eng : s.advance.eng = s.eng := rfl
@[simp] theorem State.advance_msgIn : s.advance.msgIn = s.msgIn := rfl
@[simp] theorem State.advance_script : s.advance.script = s.script.tail := rfl

@[simp] theorem State.withScript_cfg (l : List (HostMove s.cfg)) : (s.withScript l).cfg = s.cfg := rfl
@[simp] theorem State.withScript_eng (l : List (HostMove s.cfg)) : (s.withScript l).eng = s.eng := rfl
@[simp] theorem State.withScript_msgIn (l : List (HostMove s.cfg)) : (s.withScript l).msgIn = s.msgIn := rfl
@[simp] theorem State.withScript_script (l : List (HostMove s.cfg)) : (s.withScript l).script = l := rfl

@[simp] theorem State.withMsgIn_cfg (m : BitVec s.cfg.msgBits) : (s.withMsgIn m).cfg = s.cfg := rfl
@[simp] theorem State.withMsgIn_eng (m : BitVec s.cfg.msgBits) : (s.withMsgIn m).eng = s.eng := rfl
@[simp] theorem State.withMsgIn_msgIn (m : BitVec s.cfg.msgBits) : (s.withMsgIn m).msgIn = m := rfl
@[simp] theorem State.withMsgIn_script (m : BitVec s.cfg.msgBits) : (s.withMsgIn m).script = s.script := rfl

@[simp] theorem State.resetEngine_cfg : s.resetEngine.cfg = s.cfg := rfl
@[simp] theorem State.resetEngine_eng : s.resetEngine.eng = Engine.reset s.cfg := rfl
@[simp] theorem State.resetEngine_msgIn : s.resetEngine.msgIn = s.msgIn := rfl
@[simp] theorem State.resetEngine_script : s.resetEngine.script = s.script := rfl

@[simp] theorem State.presenting_cfg (w : CmdWord) : (s.presenting w).cfg = s.cfg := rfl
@[simp] theorem State.presenting_eng (w : CmdWord) : (s.presenting w).eng = s.eng := rfl
@[simp] theorem State.presenting_msgIn (w : CmdWord) : (s.presenting w).msgIn = s.msgIn := rfl
@[simp] theorem State.presenting_script (w : CmdWord) : (s.presenting w).script = .issue w :: s.script := rfl

section mk
variable (c : Config) (e f : Engine c) (m n : BitVec c.msgBits) (l k : List (HostMove c))

/-! A proof takes a state apart (`obtain ⟨c, e, m, l⟩ := s`) and these put every update back into that form. -/

@[simp] theorem State.mk_withEngine : (State.mk c e m l).withEngine f = ⟨c, f, m, l⟩ := rfl
@[simp] theorem State.mk_withMsgIn : (State.mk c e m l).withMsgIn n = ⟨c, e, n, l⟩ := rfl
@[simp] theorem State.mk_withScript : (State.mk c e m l).withScript k = ⟨c, e, m, k⟩ := rfl
@[simp] theorem State.mk_advance : (State.mk c e m l).advance = ⟨c, e, m, l.tail⟩ := rfl
@[simp] theorem State.mk_resetEngine : (State.mk c e m l).resetEngine = ⟨c, Engine.reset c, m, l⟩ := rfl
@[simp] theorem State.mk_presenting (w : CmdWord) : (State.mk c e m l).presenting w = ⟨c, e, m, .issue w :: l⟩ := rfl
@[simp] theorem State.mk_attempt (legal : List Phase) (act : Engine c → Engine c) :
    (State.mk c e m l).attempt legal act = .next ⟨c, e.attempt legal act, m, l⟩ := rfl
@[simp] theorem State.mk_badPhase :
    (State.mk c e m l).badPhase = .next ⟨c, e.raiseCmdError .badPhase, m, l⟩ := rfl
@[simp] theorem State.mk_refuseCode :
    (State.mk c e m l).refuseCode = .next ⟨c, e.gated fun e => e.raiseCmdError .illegalCmd, m, l⟩ := rfl

end mk

section engine
variable {c : Config} (e : Engine c) (k : ErrCode)

@[simp] theorem Engine.raiseCmdError_array : (e.raiseCmdError k).array = e.array := rfl
@[simp] theorem Engine.raiseCmdError_rnd : (e.raiseCmdError k).rnd = e.rnd := rfl
@[simp] theorem Engine.raiseCmdError_blk : (e.raiseCmdError k).blk = e.blk := rfl
@[simp] theorem Engine.raiseCmdError_phase : (e.raiseCmdError k).phase = e.phase := rfl
@[simp] theorem Engine.raiseCmdError_err : (e.raiseCmdError k).err = true := rfl
@[simp] theorem Engine.raiseCmdError_errCode : (e.raiseCmdError k).errCode = k := rfl
@[simp] theorem Engine.raiseCmdError_msg : (e.raiseCmdError k).msg = e.msg := rfl
@[simp] theorem Engine.raiseCmdError_dig : (e.raiseCmdError k).dig = e.dig := rfl

end engine

section reset
variable (c : Config)

@[simp] theorem Engine.reset_array : (Engine.reset c).array = StateArray.zero := rfl
@[simp] theorem Engine.reset_rnd : (Engine.reset c).rnd = 0 := rfl
@[simp] theorem Engine.reset_blk : (Engine.reset c).blk = 0 := rfl
@[simp] theorem Engine.reset_phase : (Engine.reset c).phase = .idle := rfl
@[simp] theorem Engine.reset_err : (Engine.reset c).err = false := rfl
@[simp] theorem Engine.reset_errCode : (Engine.reset c).errCode = .none := rfl
@[simp] theorem Engine.reset_msg : (Engine.reset c).msg = 0 := rfl
@[simp] theorem Engine.reset_dig : (Engine.reset c).dig = 0 := rfl

@[simp] theorem State.resetOf_cfg : (State.resetOf c).cfg = c := rfl
@[simp] theorem State.resetOf_eng : (State.resetOf c).eng = Engine.reset c := rfl
@[simp] theorem State.resetOf_msgIn : (State.resetOf c).msgIn = 0 := rfl
@[simp] theorem State.resetOf_script : (State.resetOf c).script = [] := rfl

end reset

section powerUp
variable (c : Config) (e : Engine c) (h : e.LegalDraw) (m : BitVec c.msgBits) (l : List (HostMove c))

@[simp] theorem State.powerUp_eq : State.powerUp c e h m l = ⟨c, e, m, l⟩ := rfl

/-- A draw is legal exactly when BLK is at most NBLK. -/
theorem Engine.legalDraw_iff : e.LegalDraw ↔ e.blk.toNat ≤ nblk c.msgBits := Iff.rfl

end powerUp

end Sys2Proof.Machine
end

