-- ==== Sys2Proof/Laws/Ops.lean ====
section
/-! SUPPORT. What the shared operations can do: the checks before a command, a code on `cmd`, and one step. -/

namespace Sys2Proof.Machine

section engine
variable {c : Config} (e : Engine c) (act : Engine c → Engine c) (legal : List Phase)

@[simp] theorem Engine.gated_err (h : e.err = true) : e.gated act = e := by
  simp [Engine.gated, h]

@[simp] theorem Engine.gated_ok (h : e.err = false) : e.gated act = act e := by
  simp [Engine.gated, h]

@[simp] theorem Engine.attempt_err (h : e.err = true) : e.attempt legal act = e := by
  simp [Engine.attempt, h]

@[simp] theorem Engine.attempt_illegal (h : e.err = false) (hp : e.phase ∉ legal) :
    e.attempt legal act = e.raiseCmdError .badPhase := by
  simp [Engine.attempt, h, hp]

@[simp] theorem Engine.attempt_legal (h : e.err = false) (hp : e.phase ∈ legal) : e.attempt legal act = act e := by
  simp [Engine.attempt, h, hp]

/-- A command is ignored, refused with BAD_PHASE, or performed (R254). -/
theorem Engine.attempt_cases :
    (e.err = true ∧ e.attempt legal act = e) ∨
    (e.err = false ∧ e.phase ∉ legal ∧ e.attempt legal act = e.raiseCmdError .badPhase) ∨
    (e.err = false ∧ e.phase ∈ legal ∧ e.attempt legal act = act e) := by
  cases h : e.err with
  | true => exact .inl ⟨rfl, e.attempt_err act legal h⟩
  | false =>
    by_cases hp : e.phase ∈ legal
    · exact .inr (.inr ⟨rfl, hp, e.attempt_legal act legal h hp⟩)
    · exact .inr (.inl ⟨rfl, hp, e.attempt_illegal act legal h hp⟩)

end engine

/-- Every command answers a next state that differs from the old one in the engine's registers only. -/
theorem exec_withEngine (i : Instr) (s : State) : ∃ e : Engine s.cfg, exec i s = .next (s.withEngine e) := by
  cases i
  case nop => exact ⟨s.eng, rfl⟩
  all_goals exact ⟨_, rfl⟩

theorem issue_cmd {s : State} {code : CmdWord} {i : Instr} (h : decodeWord code = .cmd i) : s.issue code = exec i s := by
  simp [State.issue, h]

theorem issue_reserved {s : State} {code w : CmdWord} (h : decodeWord code = .reserved w) :
    s.issue code = s.refuseCode := by
  simp [State.issue, h]

@[simp] theorem issue_encode (s : State) (i : Instr) : s.issue (encode i) = exec i s := by
  cases i <;> rfl

/-- Every code answers a next state that differs from the old one in the engine's registers only. -/
theorem issue_withEngine (s : State) (code : CmdWord) : ∃ e : Engine s.cfg, s.issue code = .next (s.withEngine e) := by
  cases h : decodeWord code with
  | cmd i => rw [issue_cmd h]; exact exec_withEngine i s
  | reserved w => rw [issue_reserved h]; exact ⟨_, rfl⟩

theorem step_nil {s : State} (h : s.script = []) : step s = .next s := by
  simp [step, State.serve, h]

theorem step_cons {s : State} {move : HostMove s.cfg} {rest : List (HostMove s.cfg)} (h : s.script = move :: rest) :
    step s = s.advance.applyMove move := by
  simp [step, State.serve, h]

section moves
variable (c : Config) (e : Engine c) (m n : BitVec c.msgBits) (l : List (HostMove c))

@[simp] theorem step_mk_nil : step ⟨c, e, m, []⟩ = .next ⟨c, e, m, []⟩ := rfl
@[simp] theorem step_mk_drive : step ⟨c, e, m, .drive n :: l⟩ = .next ⟨c, e, n, l⟩ := rfl
@[simp] theorem step_mk_issue (w : CmdWord) : step ⟨c, e, m, .issue w :: l⟩ = State.issue ⟨c, e, m, l⟩ w := rfl
@[simp] theorem step_mk_reset (w : Option CmdWord) :
    step ⟨c, e, m, .reset w :: l⟩ = .next ⟨c, Engine.reset c, m, l⟩ := rfl
@[simp] theorem step_mk_read : step ⟨c, e, m, .read :: l⟩ = .next ⟨c, e, m, l⟩ := rfl

/-- One step with a command presented is `exec` of it. -/
theorem step_mk_encode (i : Instr) : step ⟨c, e, m, .issue (encode i) :: l⟩ = exec i ⟨c, e, m, l⟩ := by
  cases i <;> rfl

end moves

@[simp] theorem runSteps_zero (s : State) : runSteps 0 s = .next s := rfl

/-- The host's run, one step at a time. -/
theorem core_run_succ (M : Host.Core) (k : Nat) (s : M.State) :
    M.run (k + 1) s = match M.step s with
      | .next t => M.run k t
      | .fault r => .fault r
      | .refused r => .refused r := rfl

theorem runSteps_succ (k : Nat) (s : State) :
    runSteps (k + 1) s = match step s with
      | .next t => runSteps k t
      | .fault r => .fault r
      | .refused r => .refused r := by
  refine (core_run_succ Sys2Proof.core k s).trans ?_
  have h : Sys2Proof.core.step s = step s := rfl
  rw [h]
  cases step s <;> rfl

theorem runSteps_next {k : Nat} {s t : State} (h : step s = .next t) : runSteps (k + 1) s = runSteps k t := by
  rw [runSteps_succ, h]

end Sys2Proof.Machine
end

