-- ==== Sys2Proof/Laws/Exec.lean ====
section
/-!
SUPPORT. Each command as a function of the engine's registers and `msg_in` alone, one equation per command: the host's
side of the state is neither read (but for `msg_in`) nor written.
-/

namespace Sys2Proof.Machine

variable {c : Config} (e : Engine c) (m : BitVec c.msgBits) (l : List (HostMove c))

/-- The registers after a command, from the registers before it and the value on `msg_in`. -/
def Engine.after {c : Config} (e : Engine c) (m : BitVec c.msgBits) : Instr → Engine c
  | .nop => e
  | .init => Engine.reset c
  | .theta => e.attempt [.idle] fun e => { e with array := Machine.theta e.array }
  | .rho => e.attempt [.idle] fun e => { e with array := Machine.rho e.array }
  | .pi => e.attempt [.idle] fun e => { e with array := Machine.pi e.array }
  | .chi => e.attempt [.idle] fun e => { e with array := Machine.chi e.array }
  | .iota => e.attempt [.idle] fun e => { e with array := Machine.iota e.array e.rnd, rnd := e.rnd + 1 }
  | .round => e.attempt [.idle] fun e => { e with array := keccakRound e.array e.rnd, rnd := e.rnd + 1 }
  | .permute => e.attempt [.idle] fun e => { e with array := remainingRounds e.rnd e.array, rnd := 0 }
  | .load => e.attempt [.idle, .done] fun e =>
      { e with msg := m, array := StateArray.zero, rnd := 0, blk := 0, phase := .absorb }
  | .absorb => e.attempt [.absorb] fun e =>
      { e with
        array := absorbBlock e.array e.blockOperand
        blk := e.blk + 1
        phase := if (e.blk + 1).toNat = nblk c.msgBits then .squeeze else e.phase }
  | .squeeze => e.attempt [.squeeze] fun e => { e with dig := Machine.squeeze e.array, phase := .done }
  | .hash => e.attempt [.idle, .done] fun e =>
      { e with
        msg := m, array := Machine.absorb m, rnd := 0, blk := BitVec.ofNat 16 (nblk c.msgBits)
        dig := Machine.squeeze (Machine.absorb m), phase := .done }

/-- Every command answers the next state whose registers are `Engine.after` and whose host side is the old one. -/
theorem exec_mk (i : Instr) : exec i ⟨c, e, m, l⟩ = .next ⟨c, e.after m i, m, l⟩ := by
  cases i <;> rfl

/-- The registers after any code on `cmd`. -/
def Engine.afterCode {c : Config} (e : Engine c) (m : BitVec c.msgBits) (code : CmdWord) : Engine c :=
  match decodeWord code with
  | .cmd i => e.after m i
  | .reserved _ => e.gated fun e => e.raiseCmdError .illegalCmd

theorem issue_mk (code : CmdWord) : State.issue ⟨c, e, m, l⟩ code = .next ⟨c, e.afterCode m code, m, l⟩ := by
  cases h : decodeWord code with
  | cmd i => rw [issue_cmd h, exec_mk]; simp [Engine.afterCode, h]
  | reserved w => rw [issue_reserved h]; simp [Engine.afterCode, h]

theorem step_mk_code (code : CmdWord) :
    step ⟨c, e, m, .issue code :: l⟩ = .next ⟨c, e.afterCode m code, m, l⟩ := by
  exact issue_mk e m l code

/-- A code that is not reserved is the code of its command. -/
theorem eq_encode_of_decode {code : CmdWord} {i : Instr} (h : decodeWord code = .cmd i) : code = encode i := by
  have all : ∀ w : CmdWord, ∀ j ∈ Instr.all, decodeWord w = .cmd j → w = encode j := by decide +kernel
  exact all code i (by cases i <;> decide) h

/-- One step is a host move of R265, or nothing when no move is left. -/
theorem step_cases (moves : List (HostMove c)) {t : State} (h : step ⟨c, e, m, moves⟩ = .next t) :
    (moves = [] ∧ t = ⟨c, e, m, []⟩) ∨
    (∃ n rest, moves = .drive n :: rest ∧ t = ⟨c, e, n, rest⟩) ∨
    (∃ code rest, moves = .issue code :: rest ∧ t = ⟨c, e.afterCode m code, m, rest⟩) ∨
    (∃ w rest, moves = .reset w :: rest ∧ t = ⟨c, Engine.reset c, m, rest⟩) ∨
    (∃ rest, moves = .read :: rest ∧ t = ⟨c, e, m, rest⟩) := by
  match moves, h with
  | [], h => rw [step_mk_nil] at h; injection h with h; exact .inl ⟨rfl, h.symm⟩
  | .drive n :: rest, h =>
    rw [step_mk_drive] at h; injection h with h; exact .inr (.inl ⟨n, rest, rfl, h.symm⟩)
  | .issue code :: rest, h =>
    rw [step_mk_code] at h; injection h with h; exact .inr (.inr (.inl ⟨code, rest, rfl, h.symm⟩))
  | .reset w :: rest, h =>
    rw [step_mk_reset] at h; injection h with h; exact .inr (.inr (.inr (.inl ⟨w, rest, rfl, h.symm⟩)))
  | .read :: rest, h =>
    rw [step_mk_read] at h; injection h with h; exact .inr (.inr (.inr (.inr ⟨rest, rfl, h.symm⟩)))

end Sys2Proof.Machine
end

