-- ==== Sys2Proof/Laws/Lanes.lean ====
section
/-! SUPPORT. Reading what the array, bit-sequence and step functions build, one lane or one bit at a time. -/

namespace Sys2Proof.Machine

@[simp] theorem five_get_tabulate {α : Type} (f : Fin 5 → α) (i : Fin 5) : (Five.tabulate f).get i = f i := by
  fin_cases i <;> rfl

theorem five_ext {α : Type} {v w : Five α} (h : ∀ i, v.get i = w.get i) : v = w := by
  obtain ⟨_, _, _, _, _⟩ := v
  obtain ⟨_, _, _, _, _⟩ := w
  have h0 := h 0
  have h1 := h 1
  have h2 := h 2
  have h3 := h 3
  have h4 := h 4
  simp only [Five.get] at h0 h1 h2 h3 h4
  subst h0 h1 h2 h3 h4
  rfl

@[simp] theorem lane_ofLanes (f : Fin 5 → Fin 5 → Lane) (x y : Fin 5) : (StateArray.ofLanes f).lane x y = f x y := by
  simp [StateArray.lane, StateArray.ofLanes]

/-- Two arrays with the same lanes are equal. -/
theorem array_ext {A B : StateArray} (h : ∀ x y, A.lane x y = B.lane x y) : A = B :=
  five_ext fun x => five_ext fun y => h x y

@[simp] theorem lane_zero (x y : Fin 5) : StateArray.zero.lane x y = 0 := by
  simp [StateArray.zero]

/-- Bit `i` of a packed sequence is its `i`-th bit. -/
@[simp] theorem getLsbD_ofBits (n : Nat) (f : Nat → Bool) (i : Nat) :
    (ofBits n f).getLsbD i = (decide (i < n) && f i) := by
  induction n with
  | zero => simp [ofBits]
  | succ n ih =>
    simp only [ofBits, BitVec.getLsbD_cons, ih]
    by_cases h : i = n
    · simp [h]
    · by_cases h2 : i < n
      · simp [h, h2, Nat.lt_succ_of_lt h2]
      · have : ¬ i < n + 1 := by omega
        simp [h, h2, this]

@[simp] theorem getLsbD_bitsFromState (A : StateArray) (i : Nat) :
    (bitsFromState A).getLsbD i = (decide (i < 1600) && sbit A i) := by
  simp [bitsFromState]

@[simp] theorem getElem_ofBits (n : Nat) (f : Nat → Bool) (i : Nat) (h : i < n) : (ofBits n f)[i] = f i := by
  rw [← BitVec.getLsbD_eq_getElem h, getLsbD_ofBits]; simp [h]

@[simp] theorem getElem_bitsFromState (A : StateArray) (i : Nat) (h : i < 1600) : (bitsFromState A)[i] = sbit A i := by
  simp [bitsFromState]

/-- Two lanes with the same 64 bits are equal. -/
theorem lane_ext {v w : Lane} (h : ∀ z, z < 64 → v.getLsbD z = w.getLsbD z) : v = w :=
  BitVec.eq_of_getLsbD_eq h

@[simp] theorem laneX_laneNumber (x y : Fin 5) : laneX (laneNumber x y) = x := by
  revert x y; decide

@[simp] theorem laneY_laneNumber (x y : Fin 5) : laneY (laneNumber x y) = y := by
  revert x y; decide

theorem laneNumber_lt (x y : Fin 5) : laneNumber x y < 25 := by
  revert x y; decide

/-- `S[x][y][z]` by its flattened index (R119). -/
theorem sbit_laneNumber (A : StateArray) (x y : Fin 5) {z : Nat} (hz : z < 64) :
    sbit A (64 * laneNumber x y + z) = (A.lane x y).getLsbD z := by
  have h1 : (64 * laneNumber x y + z) / 64 = laneNumber x y := by omega
  have h2 : (64 * laneNumber x y + z) % 64 = z := by omega
  simp [sbit, unpackLane, h1, h2]

/-- Every flattened index is some (x, y, z). -/
theorem laneNumber_laneX_laneY {l : Nat} (h : l < 25) : laneNumber (laneX l) (laneY l) = l := by
  simp only [laneNumber, laneX, laneY]; omega

@[simp] theorem lane_theta (A : StateArray) (x y : Fin 5) : (theta A).lane x y = A.lane x y ^^^ thetaEffect A x := by
  simp [theta]

@[simp] theorem lane_rho (A : StateArray) (x y : Fin 5) : (rho A).lane x y = rotl64 (A.lane x y) (rhoOffset x y) := by
  simp [rho]

@[simp] theorem lane_pi (A : StateArray) (x y : Fin 5) : (pi A).lane x y = A.lane (x + 3 * y) x := by
  simp [pi]

@[simp] theorem lane_chi (A : StateArray) (x y : Fin 5) :
    (chi A).lane x y = A.lane x y ^^^ (~~~(A.lane (x + 1) y) &&& A.lane (x + 2) y) := by
  simp [chi]

@[simp] theorem lane_iota (A : StateArray) (i : Fin 24) (x y : Fin 5) :
    (iota A i).lane x y = if x = 0 ∧ y = 0 then A.lane 0 0 ^^^ roundConstant i else A.lane x y := by
  simp [iota]

end Sys2Proof.Machine
end

