-- ==== Sys2Proof/Laws/Padding.lean ====
section
/-! SUPPORT. The block count, the padded length, and the bits of the padded message and its blocks. -/

namespace Sys2Proof.Machine

theorem nblk_pos {msgBits : Nat} (h : 1 ≤ msgBits) : 1 ≤ nblk msgBits := by
  simp only [nblk]; omega

/-- NBLK fits the 16-bit block counter for every legal L (R7). -/
theorem nblk_le {msgBits : Nat} (h : msgBits ≤ lMax) : nblk msgBits ≤ 65535 := by
  simp only [nblk, lMax] at *; omega

/-- The pad has at least two bits (R191). -/
theorem add_two_le_paddedLen (msgBits : Nat) : msgBits + 2 ≤ paddedLen msgBits := by
  simp only [paddedLen, nblk]; omega

@[simp] theorem padBit_msg {msgBits : Nat} (m : BitVec msgBits) {j : Nat} (h : j < msgBits) :
    padBit m j = m.getLsbD j := by
  simp [padBit, padClass, h]

@[simp] theorem padBit_head {msgBits : Nat} (m : BitVec msgBits) : padBit m msgBits = true := by
  simp [padBit, padClass]

theorem padBit_tail {msgBits : Nat} (m : BitVec msgBits) : padBit m (paddedLen msgBits - 1) = true := by
  have h := add_two_le_paddedLen msgBits
  have h1 : ¬ paddedLen msgBits - 1 < msgBits := by omega
  have h2 : ¬ paddedLen msgBits - 1 = msgBits := by omega
  simp [padBit, padClass, h1, h2]

theorem padBit_fill {msgBits : Nat} (m : BitVec msgBits) {j : Nat} (h1 : msgBits < j) (h2 : j < paddedLen msgBits - 1) :
    padBit m j = false := by
  have h3 : ¬ j < msgBits := by omega
  have h4 : ¬ j = msgBits := by omega
  have h5 : ¬ j = paddedLen msgBits - 1 := by omega
  simp [padBit, padClass, h3, h4, h5]

@[simp] theorem getLsbD_pad {msgBits : Nat} (m : BitVec msgBits) (j : Nat) :
    (pad m).getLsbD j = (decide (j < paddedLen msgBits) && padBit m j) := by
  simp [pad]

@[simp] theorem getElem_pad {msgBits : Nat} (m : BitVec msgBits) (j : Nat) (h : j < paddedLen msgBits) :
    (pad m)[j] = padBit m j := by
  simp [pad]

@[simp] theorem getElem_block {msgBits : Nat} (m : BitVec msgBits) (b k : Nat) (h : k < 1088) :
    (block m b)[k] = padBit m (b * 1088 + k) := by
  simp [block]

@[simp] theorem getLsbD_block {msgBits : Nat} (m : BitVec msgBits) (b k : Nat) :
    (block m b).getLsbD k = (decide (k < 1088) && padBit m (b * 1088 + k)) := by
  simp [block]

end Sys2Proof.Machine
end

