-- ==== Sys2Proof/Laws/PerInstr.lean ====
section
/-! SUPPORT. Statements made per instruction, about the instruction as syntax: its encoding's GROUP field (R81, R84). -/

namespace Sys2Proof.Laws.GroupField

/-- The GROUP field of the instruction's code is its group's number (R81, R84). -/
def Statement (i : Instr) : Prop :=
  groupField (encode i) = groupCode i.group

theorem nop : Statement .nop := rfl
theorem init : Statement .init := rfl
theorem theta : Statement .theta := rfl
theorem rho : Statement .rho := rfl
theorem pi : Statement .pi := rfl
theorem chi : Statement .chi := rfl
theorem iota : Statement .iota := rfl
theorem round : Statement .round := rfl
theorem permute : Statement .permute := rfl
theorem load : Statement .load := rfl
theorem absorb : Statement .absorb := rfl
theorem squeeze : Statement .squeeze := rfl
theorem hash : Statement .hash := rfl

end Sys2Proof.Laws.GroupField
end

