-- ==== Sys2Proof/Laws/Tables.lean ====
section
/-! SUPPORT. The construction-time check of the tables, in the form R149 gives it: the literal tables have the sizes the
spec states and equal the generators of R140 and R141. -/

namespace Sys2Proof.Machine

theorem rcTable_eq_generated : rcTable = (List.range 24).map generatedConstant := by decide +kernel

theorem roundConstant_eq_generated : ∀ i : Fin 24, roundConstant i = generatedConstant i.val := by decide +kernel

theorem rhoOffset_eq_generated : ∀ x y : Fin 5, (rhoOffset x y).val = generatedOffset x y := by decide +kernel

theorem rhoRows_size : rhoRows.length = 5 ∧ ∀ row ∈ rhoRows, row.length = 5 := by decide

end Sys2Proof.Machine
end

