-- ==== Sys2Proof/Tests/Slice0.lean ====
section
/-!
SUPPORT. Tests and witnesses. Expected values are the spec's: the opcode map of R84, the tables of
95_test_vectors.md and the examples the rules print. A theorem `witness_<Obligation>` shows that the hypotheses of that
obligation can be met, clause by clause and at the ends of each range.
-/

open Sys2Proof Sys2Proof.Machine

namespace Sys2Proof.Tests

-- One test at a time: checked side by side, they wait for each other in threads of their own and fill the memory.
set_option Elab.async false

-- ==== Helpers ====

/-- The engine of scenario (b): one message bit. -/
def oneBit : Config := ⟨1, by decide⟩

/-- An engine whose message fills one block exactly, so that NBLK = 2. -/
def oneBlock : Config := ⟨1088, by decide⟩

/-- A state with the given registers; DIG is 7, M and `msg_in` are all ones, ERR agrees with ERRCODE. -/
def stateAt (c : Config) (phase : Phase) (rnd : Fin 24) (blk : BitVec 16) (code : ErrCode)
    (moves : List (HostMove c) := []) : State :=
  ⟨c, { array := tagArray, rnd := rnd, blk := blk, phase := phase, err := code != .none, errCode := code,
        msg := BitVec.allOnes _, dig := 7 }, BitVec.allOnes _, moves⟩

/-- The next state, or none where the step stops. -/
def reached : StepOutcome → Option State
  | .next s => some s
  | .fault _ => none
  | .refused _ => none

/-- STATUS after the step. -/
def statusAfter (o : StepOutcome) : Option (BitVec 32) :=
  (reached o).map State.status

/-- Lane (x, y) of S after the step. -/
def laneAfter (o : StepOutcome) (x y : Fin 5) : Option Lane :=
  (reached o).map fun s => s.eng.array.lane x y

/-- The digest bytes after the step. -/
def digestAfter (o : StepOutcome) : Option (List (BitVec 8)) :=
  (reached o).map fun s => bytesOfDigest s.digest

/-- The 32 bytes of a digest printed as one hexadecimal number, the first byte leading. -/
def printed (n : Nat) : List (BitVec 8) :=
  (List.range 32).map fun k => BitVec.ofNat 8 (n >>> (8 * (31 - k)))

/-- Present the codes to an engine right after reset with `m` on `msg_in`. -/
def present (c : Config) (m : BitVec c.msgBits) (codes : List CmdWord) : StepOutcome :=
  runSteps codes.length (((State.resetOf c).withMsgIn m).withScript (issueAll codes))

/-- The bytes 0, 1, 2, … as a message of `8 * n` bits (D13). -/
def countingMessage (c : Config) : BitVec c.msgBits :=
  (messageOfBytes ((List.range (c.msgBits / 8)).map (BitVec.ofNat 8))).setWidth c.msgBits

-- ==== Well-formedness ====

theorem test_wf_length_too_small : legalMsgBits 0 = false := by decide
theorem test_wf_length_too_large : legalMsgBits 71302079 = false := by decide
theorem test_wf_length_ends : legalMsgBits 1 = true ∧ legalMsgBits 71302078 = true := by decide
theorem test_wf_endr_without_rep : wellFormedProgram [.endr] = false := by decide
theorem test_wf_rep_without_endr : wellFormedProgram [.rep 2, .cmd .round] = false := by decide
theorem test_wf_rep_zero : wellFormedProgram [.rep 0, .cmd .round, .endr] = false := by decide
theorem test_wf_nested : wellFormedProgram [.rep 2, .rep 1, .cmd .round, .endr, .endr, .reset] = true := by decide

-- ==== Decoding: each row's word, bit by bit from R84 ====

theorem test_decode_nop : decodeWord 0b00000000 = .cmd .nop := by decide
theorem test_decode_init : decodeWord 0b00000001 = .cmd .init := by decide
theorem test_decode_theta : decodeWord 0b00010000 = .cmd .theta := by decide
theorem test_decode_rho : decodeWord 0b00010001 = .cmd .rho := by decide
theorem test_decode_pi : decodeWord 0b00010010 = .cmd .pi := by decide
theorem test_decode_chi : decodeWord 0b00010011 = .cmd .chi := by decide
theorem test_decode_iota : decodeWord 0b00010100 = .cmd .iota := by decide
theorem test_decode_round : decodeWord 0b00010101 = .cmd .round := by decide
theorem test_decode_permute : decodeWord 0b00010110 = .cmd .permute := by decide
theorem test_decode_load : decodeWord 0b00100000 = .cmd .load := by decide
theorem test_decode_absorb : decodeWord 0b00100001 = .cmd .absorb := by decide
theorem test_decode_squeeze : decodeWord 0b00100010 = .cmd .squeeze := by decide
theorem test_decode_hash : decodeWord 0b00100011 = .cmd .hash := by decide

theorem test_decode_reserved :
    ∀ c ∈ [(0x02 : CmdWord), 0x0F, 0x17, 0x1F, 0x24, 0x2F, 0x30, 0xFF], decodeWord c = .reserved c := by decide

/-- The first step after reset runs the word placed by `withFetchWord`. -/
theorem test_first_step (i : Instr) :
    step (State.reset.withFetchWord 8 (encode i).toNat) = exec i State.reset := by
  cases i <;> rfl

-- ==== Assembler (R87): programs P1 and P4 ====

theorem test_assemble_P1 :
    assemble "RESET\nROUND ; 0x15\nROUND\n.rep 10\nROUND ; 0x15\n.endr\nPERMUTE" =
      some (List.replicate 12 0x15 ++ [0x16]) := by decide +kernel

theorem test_assemble_P4 :
    assemble "RESET\nABSORB ; 0x21  BAD_PHASE in IDLE\nLOAD\n.raw 0x30\nNOP\nINIT\n.raw 0x30\nINIT\nHASH\nSQUEEZE" =
      some [0x21, 0x20, 0x30, 0x00, 0x01, 0x30, 0x01, 0x23, 0x22] := by decide +kernel

theorem test_assemble_rejects : assemble ".rep 0\nROUND\n.endr" = none ∧ assemble "ROUNDS" = none := by decide +kernel

/-- Log entry 6: the count of `.rep` is decimal. -/
theorem test_rep_count : parseLine ".rep 010".toList = some (.rep 10) ∧ parseLine ".rep 0x0A".toList = none := by
  decide +kernel

theorem test_empty_lines : assemble "\nNOP\n  ; a comment\n" = some [0x00] := by decide +kernel

-- ==== Utilities (95_test_vectors.md L2.1) ====

theorem test_rotl64 : rotl64 0x0123456789ABCDEF 36 = 0x9ABCDEF012345678 := by decide
theorem test_rotl64_63 : rotl64 0x0123456789ABCDEF 63 = 0x8091A2B3C4D5E6F7 := by decide

-- ==== Control ====

theorem test_nop_keeps_error : statusAfter (present oneBlock 0 [0x21, 0x00]) = some 0x24 := by decide +kernel
theorem test_init_abandons_hash : statusAfter (present oneBlock 0 [0x20, 0x21, 0x01]) = some 0 := by decide +kernel

-- ==== Permutation commands (95_test_vectors.md L1.3, L2.2) ====

/-- θ(TAG), the cells (0, 0), (4, 0), (1, 2) and (4, 4). -/
theorem test_theta_tag :
    (theta tagArray).lane 0 0 = 0x1A ∧ (theta tagArray).lane 4 0 = 0x2F ∧ (theta tagArray).lane 1 2 = 3 ∧
      (theta tagArray).lane 4 4 = 0x33 := by decide +kernel

/-- θ of the state after one ROUND, as commands. -/
theorem test_theta_command :
    laneAfter (present oneBit 0 [0x15, 0x10]) 4 2 = some 2 ∧ laneAfter (present oneBit 0 [0x15, 0x10]) 1 4 = some 1 := by
  decide +kernel

theorem test_rho_command :
    laneAfter (present oneBit 0 [0x15, 0x10, 0x11]) 4 2 = some 0x0000010000000000 ∧
      laneAfter (present oneBit 0 [0x15, 0x10, 0x11]) 1 1 = some 0x0000100000000000 := by decide +kernel

theorem test_pi_tag : (pi tagArray).lane 1 0 = 6 ∧ (pi tagArray).lane 0 1 = 3 ∧ (pi tagArray).lane 4 4 = 21 := by
  decide +kernel

theorem test_pi_command :
    laneAfter (present oneBit 0 [0x15, 0x10, 0x11, 0x12]) 3 1 = some 0x0000200000000000 := by decide +kernel

theorem test_chi_command :
    laneAfter (present oneBit 0 [0x15, 0x10, 0x11, 0x12, 0x13]) 4 0 = some 0x0000100000008000 ∧
      laneAfter (present oneBit 0 [0x15, 0x10, 0x11, 0x12, 0x13]) 3 2 = some 0x0000000000000202 := by decide +kernel

/-- 23 and 24 IOTAs from reset: the XOR of the constants, and RND wraps. -/
theorem test_iota_wraps :
    laneAfter (present oneBit 0 (List.replicate 23 0x14)) 0 0 = some 0x80000002 ∧
      statusAfter (present oneBit 0 (List.replicate 23 0x14)) = some 0x1700 ∧
      laneAfter (present oneBit 0 (List.replicate 24 0x14)) 0 0 = some 0x800000000000800A ∧
      statusAfter (present oneBit 0 (List.replicate 24 0x14)) = some 0 := by decide +kernel

/-- Twelve rounds from reset. -/
theorem test_round_twelve :
    laneAfter (present oneBit 0 (List.replicate 12 0x15)) 0 0 = some 0x4089B1D2EF5D3A26 ∧
      laneAfter (present oneBit 0 (List.replicate 12 0x15)) 4 4 = some 0x438298AA08F16A54 ∧
      statusAfter (present oneBit 0 (List.replicate 12 0x15)) = some 0xC00 := by decide +kernel

/-- PERMUTE with RND = 23 performs round 23 only. -/
theorem test_permute_last_round :
    laneAfter (present oneBit 0 (List.replicate 23 0x14 ++ [0x16])) 0 3 = some 0x0800020020000800 ∧
      laneAfter (present oneBit 0 (List.replicate 23 0x14 ++ [0x16])) 4 4 = some 0x0000000200000008 ∧
      statusAfter (present oneBit 0 (List.replicate 23 0x14 ++ [0x16])) = some 0 := by decide +kernel

/-- PERMUTE from reset, and again. -/
theorem test_permute_twice :
    laneAfter (present oneBit 0 [0x16]) 4 4 = some 0xEAF1FF7B5CECA249 ∧
      laneAfter (present oneBit 0 [0x16, 0x16]) 0 0 = some 0x2D5C954DF96ECB3C := by decide +kernel

-- ==== Errors (95_test_vectors.md L2.5) ====

theorem test_reserved_raises :
    ∀ c ∈ [(0x02 : CmdWord), 0x17, 0x24, 0x30, 0xFF], statusAfter (present oneBit 0 [c]) = some 0x14 := by
  decide +kernel

theorem test_gate_before_decode : statusAfter (present oneBit 0 [0x21, 0x30, 0x23, 0x15]) = some 0x24 := by
  decide +kernel

theorem test_no_block_left : statusAfter (present oneBit 1#1 [0x20, 0x21, 0x21]) = some 0x00010026 := by decide +kernel

theorem test_refused_in_done : statusAfter (present oneBit 1#1 [0x23, 0x14]) = some 0x00010027 := by decide +kernel

-- ==== States that meet the invariants ====

/-- Right after LOAD of a one-block message: phase ABSORB with both blocks to come. -/
def loaded : State :=
  ⟨oneBlock, { array := StateArray.zero, rnd := 0, blk := 0, phase := .absorb, err := false, errCode := .none,
               msg := BitVec.allOnes _, dig := 7 }, 0, [.issue 0x21]⟩

/-- Right after HASH of the one-bit message. -/
def hashed : State :=
  ⟨oneBit, { array := absorb 1#1, rnd := 0, blk := 1, phase := .done, err := false, errCode := .none,
             msg := 1#1, dig := squeeze (absorb 1#1) }, 0, [.issue 0x22]⟩

theorem loaded_inv : loaded.eng.Inv where
  ranges := ⟨by decide, by decide⟩
  sequenced := ⟨(nomatch ·), fun _ => ⟨rfl, by decide⟩, (nomatch ·), (nomatch ·)⟩
  absorbed := ⟨fun _ => rfl, (nomatch ·)⟩

theorem hashed_inv : hashed.eng.Inv where
  ranges := ⟨by decide, by decide⟩
  sequenced := ⟨(nomatch ·), (nomatch ·), (nomatch ·), fun _ => ⟨rfl, by decide⟩⟩
  absorbed := ⟨fun _ => rfl, fun _ i h => by
    show (squeeze (absorb 1#1)).getLsbD i = sbit (absorb 1#1) i
    simp only [squeeze, statePrefix, BitVec.getLsbD_setWidth, getLsbD_bitsFromState, h, decide_true, Bool.true_and]
    simp [show i < 1600 by omega]⟩

-- ==== Witnesses: encoding and the assembler ====

theorem witness_EveryCommandDecodesFromItsCode : ∀ i ∈ Instr.all, i.WellFormed :=
  fun _ _ => trivial

theorem witness_ReservedCodesAreRefused :
    decodeWord 0x30 = .reserved 0x30 ∧ decodeWord 0xFF = .reserved 0xFF ∧ State.reset.eng.err = false := by decide

theorem witness_RepeatsExpandExactlyWhenWellFormed :
    1 ≤ 1 ∧ programEncoding [] = some [] ∧ programEncoding [.cmd .round] = some [0x15] ∧
      programEncoding [.rep 1, .cmd .permute, .endr] = some [0x16] := by decide

-- ==== Witnesses: steps and the host ====

theorem witness_StepRunsThePresentedCommand :
    decodeWord 0x23 = .cmd .hash ∧ decodeTableWord 8 0x00 = some .nop ∧ decodeTableWord 8 0x23 = some .hash := by decide

theorem witness_MessageIsSampledOnlyByLoadAndHash :
    (State.reset.eng.err = false ∧ State.reset.eng.phase = .idle) ∧
    (hashed.eng.err = false ∧ hashed.eng.phase = .done) ∧
    (∀ move ∈ ([.issue 0x10, .read, .drive 1#1, .issue 0x20] : List (HostMove oneBit)).take 3,
      move.samplesMessage = false) := by
  refine ⟨by decide, by decide +kernel, by decide⟩

-- ==== Witnesses: reset, power-up, control ====

theorem witness_BootFromAnyPowerUpState :
    ((.reset none : HostMove oneBlock) = .reset none ∨ (.reset none : HostMove oneBlock) = .issue 0x01) ∧
    ((.issue 0x01 : HostMove oneBlock) = .reset none ∨ (.issue 0x01 : HostMove oneBlock) = .issue 0x01) ∧
    (∀ codes ∈ [[(0x23 : CmdWord)], [0x20, 0x21, 0x21, 0x22]],
      codes = [0x23] ∨ codes = 0x20 :: (List.replicate (nblk oneBlock.msgBits) 0x21 ++ [0x22])) := by decide

/-- BLK = NBLK can be drawn at power-up, and NBLK + 1 can not. -/
theorem witness_PowerUpDrawsTheLegalValues :
    (stateAt oneBlock .absorb 23 2 .badPhase).eng.LegalDraw ∧ ¬ (stateAt oneBlock .idle 0 3 .none).eng.LegalDraw :=
  ⟨show 2 ≤ nblk 1088 by decide, show ¬ 3 ≤ nblk 1088 by decide⟩

theorem witness_InitReturnsEveryRegister :
    (stateAt oneBit .done 0 1 .badPhase).eng.err = true ∧ Instr.hash ≠ .init := by decide

-- ==== Witnesses: permutation commands ====

theorem witness_ThetaMixesColumnParities : 63 < 64 ∧ (stateAt oneBit .idle 23 0 .none).eng.phase = .idle ∧
    (stateAt oneBit .idle 23 0 .none).eng.err = false ∧ (stateAt oneBit .done 0 1 .none).eng.phase ≠ .idle := by decide

theorem witness_RhoRotatesEachLane : 63 < 64 ∧ (stateAt oneBit .idle 0 0 .none).eng.phase = .idle ∧
    (stateAt oneBit .idle 0 0 .none).eng.err = false ∧ (stateAt oneBit .absorb 0 0 .none).eng.phase ≠ .idle := by decide

theorem witness_PiRelabelsTheLanes : (stateAt oneBit .idle 0 0 .none).eng.phase = .idle ∧
    (stateAt oneBit .idle 0 0 .none).eng.err = false ∧ (stateAt oneBit .squeeze 0 1 .none).eng.phase ≠ .idle := by decide

theorem witness_ChiMixesRows : 63 < 64 ∧ (stateAt oneBit .idle 0 0 .none).eng.phase = .idle ∧
    (stateAt oneBit .idle 0 0 .none).eng.err = false ∧ (stateAt oneBit .done 0 1 .none).eng.phase ≠ .idle := by decide

theorem witness_IotaInjectsTheRoundConstant :
    (stateAt oneBit .idle 23 0 .none).eng.phase = .idle ∧ (stateAt oneBit .idle 23 0 .none).eng.err = false ∧
    (stateAt oneBit .idle 23 0 .none).eng.rnd = 23 ∧ ((4, 4) : Fin 5 × Fin 5) ≠ (0, 0) ∧
    ((1, 0) : Fin 5 × Fin 5) ≠ (0, 0) ∧ (stateAt oneBit .absorb 0 0 .none).eng.phase ≠ .idle := by decide

theorem witness_RoundIsTheFiveStepsInOrder :
    (∀ r ∈ [(0 : Fin 24), 23], (stateAt oneBit .idle r 0 .none).eng.phase = .idle ∧
      (stateAt oneBit .idle r 0 .none).eng.err = false ∧ (stateAt oneBit .idle r 0 .none).eng.rnd = r) ∧
    (stateAt oneBit .absorb 0 0 .none).eng.phase ≠ .idle := by decide

theorem witness_PermutePerformsTheRemainingRounds :
    (∀ r ∈ [(0 : Fin 24), 23], (stateAt oneBit .idle r 0 .none).eng.phase = .idle ∧
      (stateAt oneBit .idle r 0 .none).eng.err = false ∧ (stateAt oneBit .idle r 0 .none).eng.rnd = r) ∧
    (stateAt oneBit .done 0 1 .none).eng.phase ≠ .idle ∧ 0 < 24 ∧ 23 < 24 := by decide

-- ==== Witnesses: utilities ====

theorem witness_RotationMovesBitsUp : 0 < 64 ∧ 63 < 64 ∧ 1 ≤ (1 : Fin 64).val ∧ 1 ≤ (63 : Fin 64).val := by decide

theorem witness_PackingIsLossless : 0 < 64 ∧ 63 < 64 ∧ unpackLane (packLane fun z => z == 63) 63 = true := by decide +kernel

theorem witness_StatePackingIsLossless : 0 < 1600 ∧ 1599 < 1600 ∧ sbit onesArray 1599 = true := by decide +kernel

theorem witness_FlattenedIndexOfEachBit : 63 < 64 ∧ 1599 < 1600 ∧ 64 * (5 * (4 : Fin 5).val + (4 : Fin 5).val) + 63 = 1599 := by
  decide

theorem witness_XorPrefixLeavesTheRestAlone :
    (1 ≤ 1 ∧ 1 ≤ 1600 ∧ 0 < 1600) ∧ (1 ≤ 1600 ∧ 1600 ≤ 1600 ∧ 1599 < 1600) ∧
      17 ≤ 5 * (3 : Fin 5).val + (2 : Fin 5).val ∧ 17 ≤ 5 * (4 : Fin 5).val + (4 : Fin 5).val := by decide

theorem witness_DigestIsTheFirstFourLanes : 0 < 256 ∧ 255 < 256 ∧ (3 : Fin 5).val < 4 ∧ 63 < 64 := by decide

-- ==== Witnesses: padding ====

theorem witness_BlockCountIsMinimal : 1086 + 2 ≤ 1 * 1088 ∧ 1087 + 2 ≤ 2 * 1088 ∧ paddedLen 1086 = 1088 ∧
    nblk lMax = 65535 := by decide

theorem witness_PadLengthRange : 1087 % 1088 = 1087 ∧ paddedLen 1087 - 1087 = 1089 ∧ 1086 % 1088 = 1086 ∧
    paddedLen 1086 - 1086 = 2 := by decide

theorem witness_PadBoundaryCases : 1088 % 1088 = 0 ∧ (1 ≤ 1 % 1088 ∧ 1 % 1088 ≤ 1086) ∧
    (1 ≤ 1086 % 1088 ∧ 1086 % 1088 ≤ 1086) ∧ 1087 % 1088 = 1087 := by decide

/-- L = 1: one message bit, and fill from 2 to 1086. -/
theorem witness_PaddedMessageBits : 0 < 1 ∧ (1 + 1 ≤ 2 ∧ 2 + 2 ≤ paddedLen 1) ∧ (1 + 1 ≤ 1086 ∧ 1086 + 2 ≤ paddedLen 1) := by
  decide

theorem witness_BlocksCutThePaddedMessage : (0 < nblk 1088 ∧ 0 < 1088) ∧ (1 < nblk 1088 ∧ 1087 < 1088) ∧
    1087 % 1088 = 1087 ∧ 1088 % 1088 ≠ 1087 := by decide

theorem witness_PadMachineEmitsThePaddedMessage : 1 ≤ 1 ∧ 1086 % 1088 = 1086 ∧ 1 % 1088 ≠ 1086 := by decide

theorem witness_ByteAlignedPadding : 135 + 1 = paddedLen (8 * 135) / 8 ∧ 3 + 1 ≠ paddedLen (8 * 3) / 8 ∧
    0 + 1 ≠ paddedLen (8 * 0) / 8 ∧ 136 + 1 ≠ paddedLen (8 * 136) / 8 := by decide

-- ==== Witnesses: sponge commands ====

theorem witness_LoadLatchesTheMessage :
    (∀ p ∈ [Phase.absorb, .squeeze], (stateAt oneBit p 0 1 .none).eng.err = false ∧
      ((stateAt oneBit p 0 1 .none).eng.phase = .absorb ∨ (stateAt oneBit p 0 1 .none).eng.phase = .squeeze)) ∧
    (∀ p ∈ [Phase.idle, .done], (stateAt oneBit p 0 1 .none).eng.err = false ∧
      ((stateAt oneBit p 0 1 .none).eng.phase = .idle ∨ (stateAt oneBit p 0 1 .none).eng.phase = .done)) := by decide +kernel

/-- A phase that refuses ABSORB; the first of two blocks; the last block; a state that meets the invariants. -/
theorem witness_AbsorbTakesTheNextBlock :
    ((stateAt oneBlock .idle 0 0 .none).eng.err = false ∧ (stateAt oneBlock .idle 0 0 .none).eng.phase ≠ .absorb) ∧
    (∀ b : BitVec 16, (stateAt oneBlock .absorb 0 b .none).eng.err = false ∧
      (stateAt oneBlock .absorb 0 b .none).eng.phase = .absorb ∧ (stateAt oneBlock .absorb 0 b .none).eng.blk = b ∧
      (stateAt oneBlock .absorb 0 b .none).cfg = oneBlock) ∧
    (0 : BitVec 16).toNat < nblk oneBlock.msgBits ∧ (1 : BitVec 16).toNat < nblk oneBlock.msgBits ∧
    (loaded.eng.Inv ∧ loaded.eng.phase = .absorb) :=
  ⟨⟨rfl, nofun⟩, fun _ => ⟨rfl, rfl, rfl, rfl⟩, by decide, by decide, loaded_inv, rfl⟩

/-- The first block number past the end, and the largest one. -/
theorem witness_AbsorbPastTheLastBlockCompletes :
    (∀ b : BitVec 16, (stateAt oneBlock .absorb 0 b .none).eng.err = false ∧
      (stateAt oneBlock .absorb 0 b .none).eng.phase = .absorb ∧ (stateAt oneBlock .absorb 0 b .none).eng.blk = b ∧
      (stateAt oneBlock .absorb 0 b .none).cfg = oneBlock) ∧
    nblk oneBlock.msgBits ≤ (2 : BitVec 16).toNat ∧ nblk oneBlock.msgBits ≤ (0xFFFF : BitVec 16).toNat :=
  ⟨fun _ => ⟨rfl, rfl, rfl, rfl⟩, by decide, by decide⟩

theorem witness_SqueezeExtractsTheDigest :
    (∀ p ∈ [Phase.idle, .absorb, .done], (stateAt oneBit p 0 1 .none).eng.err = false ∧
      (stateAt oneBit p 0 1 .none).eng.phase ≠ .squeeze) ∧
    (stateAt oneBit .squeeze 0 1 .none).eng.err = false ∧ (stateAt oneBit .squeeze 0 1 .none).eng.phase = .squeeze ∧
    255 < 256 := by decide +kernel

theorem witness_HashIsTheWholeHash :
    (∀ p ∈ [Phase.absorb, .squeeze], (stateAt oneBit p 0 1 .none).eng.err = false ∧
      ((stateAt oneBit p 0 1 .none).eng.phase = .absorb ∨ (stateAt oneBit p 0 1 .none).eng.phase = .squeeze)) ∧
    (∀ p ∈ [Phase.idle, .done], (stateAt oneBit p 0 1 .none).eng.err = false ∧
      ((stateAt oneBit p 0 1 .none).eng.phase = .idle ∨ (stateAt oneBit p 0 1 .none).eng.phase = .done)) := by decide +kernel

theorem witness_StepwiseHashEqualsAtomicHash :
    (∀ p ∈ [Phase.idle, .done], (stateAt oneBlock p 0 1 .none).eng.err = false ∧
      ((stateAt oneBlock p 0 1 .none).eng.phase = .idle ∨ (stateAt oneBlock p 0 1 .none).eng.phase = .done)) ∧
    0 < nblk oneBlock.msgBits ∧ 1 < nblk oneBlock.msgBits := by decide +kernel

-- ==== Witnesses: errors ====

theorem witness_LegalityTableDecides :
    Instr.theta ∈ [Instr.theta, .rho, .pi, .chi, .iota, .round, .permute] ∧ Instr.hash ∈ [Instr.load, .hash] ∧
    (stateAt oneBit .idle 0 0 .none).eng.err = false ∧
    legalIn .absorb (stateAt oneBit .idle 0 0 .none).eng.phase = false ∧
    legalIn .hash (stateAt oneBit .idle 0 0 .none).eng.phase = true := by decide

theorem witness_ErrorGateIgnoresCommands :
    (stateAt oneBit .idle 0 0 .illegalCmd).eng.err = true ∧ (0x00 : CmdWord) ≠ 0x01 ∧ (0x23 : CmdWord) ≠ 0x01 ∧
      (0xFF : CmdWord) ≠ 0x01 := by decide

theorem witness_ChecksRunInOrder :
    ((stateAt oneBit .done 0 1 .badPhase).eng.err = true ∧ (0x02 : CmdWord) ≠ 0x00 ∧ (0x02 : CmdWord) ≠ 0x01) ∧
    ((stateAt oneBit .done 0 1 .none).eng.err = false ∧ decodeWord 0x24 = .reserved 0x24) ∧
    (decodeWord 0x22 = .cmd .squeeze ∧ legalIn .squeeze (stateAt oneBit .done 0 1 .none).eng.phase = false) ∧
    (decodeWord 0x20 = .cmd .load ∧ legalIn .load (stateAt oneBit .done 0 1 .none).eng.phase = true) ∧
    (decodeWord 0x00 = .cmd .nop ∧ decodeWord 0x01 = .cmd .init) := by decide

theorem witness_ErrorIsStickyOverRuns :
    (stateAt oneBit .idle 0 0 .badPhase).eng.err = true ∧
    (∀ move ∈ ([.issue 0x30, .drive 0#1, .issue 0x23, .read, .issue 0x01] : List (HostMove oneBit)).take 4,
      move.clearsError = false) := by decide

/-- INIT in an error state: ERR is 1 before and 0 after; and the moves that clear it. -/
theorem witness_OnlyInitAndResetClearTheError :
    (∃ t, (stateAt oneBit .done 0 1 .badPhase [.issue 0x01]).eng.err = true ∧
      step (stateAt oneBit .done 0 1 .badPhase [.issue 0x01]) = .next t ∧ t.eng.err = false) ∧
    (.issue 0x01 : HostMove oneBit).clearsError = true ∧ (.reset (some 0x23) : HostMove oneBit).clearsError = true :=
  ⟨⟨_, rfl, rfl, rfl⟩, rfl, rfl⟩

-- ==== Witnesses: frames and invariants ====

theorem witness_FrameOfPermutationCommands :
    Instr.permute ∈ [Instr.theta, .rho, .pi, .chi, .iota, .round, .permute] ∧ Instr.chi ∈ [Instr.theta, .rho, .pi, .chi] ∧
    (stateAt oneBit .idle 23 0 .badPhase).eng.phase = .idle ∧ (stateAt oneBit .done 0 1 .none).eng.phase ≠ .idle := by
  decide

theorem witness_FrameOfSpongeCommands :
    legalIn .load (stateAt oneBit .idle 0 0 .none).eng.phase = true ∧
    legalIn .absorb (stateAt oneBit .absorb 0 0 .none).eng.phase = true ∧
    legalIn .squeeze (stateAt oneBit .squeeze 0 1 .none).eng.phase = true ∧
    legalIn .hash (stateAt oneBit .done 0 1 .badPhase).eng.phase = true := by decide

theorem witness_EveryStepKeepsTheInvariants :
    (loaded.eng.Inv ∧ ∃ t, step loaded = .next t) ∧ (hashed.eng.Inv ∧ ∃ t, step hashed = .next t) :=
  ⟨⟨loaded_inv, _, rfl⟩, hashed_inv, _, rfl⟩

theorem witness_EveryStepKeepsTheRanges :
    (loaded.eng.Ranges ∧ (loaded.eng.phase = .absorb → loaded.eng.blk.toNat < nblk loaded.cfg.msgBits) ∧
      ∃ t, step loaded = .next t) ∧
    (hashed.eng.Ranges ∧ (hashed.eng.phase = .absorb → hashed.eng.blk.toNat < nblk hashed.cfg.msgBits) ∧
      ∃ t, step hashed = .next t) :=
  ⟨⟨loaded_inv.ranges, fun _ => by decide, _, rfl⟩, hashed_inv.ranges, fun h => (nomatch h), _, rfl⟩

theorem witness_DigestInDoneIsKeccak256 : hashed.eng.Inv ∧ hashed.eng.phase = .done :=
  ⟨hashed_inv, rfl⟩

-- ==== Witnesses: building an engine ====

theorem witness_ElaborationRefusesBadBuilds :
    0 < 1 ∧ (71302078 < 71302079) ∧ (1 ≤ 1 ∧ 1 ≤ 71302078) ∧ (1 ≤ 71302078 ∧ 71302078 ≤ 71302078) ∧
    (rcTable.take 23 ≠ rcTable ∨ rhoRows ≠ rhoRows) ∧ (rcTable ≠ rcTable ∨ rhoRows.reverse ≠ rhoRows) := by decide

-- ==== Sponge commands (95_test_vectors.md L1.4, L2.4): the slowest tests, so the last ones ====

/-- LOAD in DONE keeps DIG and clears S. -/
theorem test_load_keeps_digest :
    digestAfter (present Config.standard 0 [0x23, 0x20]) =
        some (printed 0x290decd9548b62a8d60345a988386fc84ba6bc95484008f6362f93160ef3e563) ∧
      statusAfter (present Config.standard 0 [0x23, 0x20]) = some 1 ∧
      laneAfter (present Config.standard 0 [0x23, 0x20]) 0 0 = some 0 := by decide +kernel

/-- ABSORB reads M and not `msg_in`. -/
theorem test_absorb_reads_latch :
    digestAfter (runSteps 5 (((State.resetOf oneBit).withMsgIn 1#1).withScript
        [.issue 0x20, .drive 0#1, .issue 0x21, .issue 0x22, .read])) =
      some (printed 0x1f9e121db558ff4a6111d06e48b47aa9e8c968222397c5867ed627c82a5bcce4) := by decide +kernel

/-- The first ABSORB of scenario (c): one block of two. -/
theorem test_absorb_first_block :
    laneAfter (present oneBlock (countingMessage oneBlock) [0x20, 0x21]) 0 0 = some 0xC9834334D2362F28 ∧
      statusAfter (present oneBlock (countingMessage oneBlock) [0x20, 0x21]) = some 0x00010001 := by
  decide +kernel

/-- SQUEEZE after both ABSORBs of scenario (c). -/
theorem test_squeeze_scenario_c :
    digestAfter (present oneBlock (countingMessage oneBlock) [0x20, 0x21, 0x21, 0x22]) =
      some (printed 0x7ce759f1ab7f9ce437719970c26b0a66ff11fe3e38e17df89cf5d29c7d7f807e) := by decide +kernel

theorem test_squeeze_early : statusAfter (present oneBlock 0 [0x20, 0x22]) = some 0x25 := by decide +kernel

/-- HASH of "abc". -/
theorem test_hash_abc :
    digestAfter (present ⟨24, by decide⟩ (messageOfBytes [0x61, 0x62, 0x63]) [0x23]) =
      some (printed 0x4e03657aea45a94fc7d47ba826c8d667c0d1e6e33a64a036ec44f58fa12d6c45) := by decide +kernel

/-- HASH of 1087 one-bits, where the padding needs a block of its own. -/
theorem test_hash_1087_ones :
    digestAfter (present ⟨1087, by decide⟩ (BitVec.allOnes 1087) [0x23]) =
      some (printed 0x8480dc24e5b9fe9ac3bfe93bc2aa22d7e67d9ab5ced24961512b653bb3210d9e) := by decide +kernel

end Sys2Proof.Tests
end

section
/-! PROOFS. The block count is minimal (R7, R191). -/

namespace Sys2Proof.Machine

/-- NBLK is the ceiling of `(L + 2) / 1088`: `n` blocks hold the message and two pad bits exactly when `n` is at least
NBLK (R7). -/
theorem nblk_le_iff {msgBits n : Nat} : nblk msgBits ≤ n ↔ msgBits + 2 ≤ n * 1088 := by
  simp only [nblk]; omega

/-- The padded length is at most every multiple of 1088 that leaves room for two pad bits (R191). -/
theorem paddedLen_le_mul {msgBits n : Nat} (h : msgBits + 2 ≤ n * 1088) : paddedLen msgBits ≤ n * 1088 :=
  Nat.mul_le_mul_right 1088 (nblk_le_iff.mpr h)

/-- Settles O30: NBLK is a ceiling, so PADDED_LEN is least, and the bounds on L bound NBLK. -/
theorem blockCountIsMinimal : Obligations.BlockCountIsMinimal := by
  refine ⟨fun L => ⟨rfl, rfl, add_two_le_paddedLen L, fun _ => paddedLen_le_mul⟩, fun c => ?_⟩
  obtain ⟨hpos, hmax⟩ := c.legal
  exact ⟨nblk_pos hpos, nblk_le hmax⟩

end Sys2Proof.Machine
end

section
/-!
PROOFS. The invariants of R48: what one step can do to the registers, said once, and then each group of invariants
carried over each of these changes.
-/

namespace Sys2Proof.Machine

/-- `e.CanBecome m f`: one step with `m` on `msg_in` can turn the registers `e` into `f`. One constructor per kind of
change, with what R253 to R255 ask of ERR and the phase. The permutation commands are one kind: they write S and RND only. -/
inductive Engine.CanBecome {c : Config} (e : Engine c) (m : BitVec c.msgBits) : Engine c → Prop where
  | same : CanBecome e m e
  | reset : CanBecome e m (Engine.reset c)
  | raised (he : e.err = false) (k : ErrCode) (hk : k ≠ .none) : CanBecome e m (e.raiseCmdError k)
  | permuted (he : e.err = false) (hp : e.phase = .idle) (A : StateArray) (r : Fin 24) :
      CanBecome e m { e with array := A, rnd := r }
  | loaded (he : e.err = false) (hp : e.phase = .idle ∨ e.phase = .done) :
      CanBecome e m { e with msg := m, array := StateArray.zero, rnd := 0, blk := 0, phase := .absorb }
  | absorbed (he : e.err = false) (hp : e.phase = .absorb) :
      CanBecome e m { e with
        array := absorbBlock e.array e.blockOperand
        blk := e.blk + 1
        phase := if (e.blk + 1).toNat = nblk c.msgBits then .squeeze else e.phase }
  | squeezed (he : e.err = false) (hp : e.phase = .squeeze) :
      CanBecome e m { e with dig := squeeze e.array, phase := .done }
  | hashed (he : e.err = false) (hp : e.phase = .idle ∨ e.phase = .done) :
      CanBecome e m { e with
        msg := m, array := absorb m, rnd := 0, blk := BitVec.ofNat 16 (nblk c.msgBits)
        dig := squeeze (absorb m), phase := .done }

section change
variable {c : Config} {e f : Engine c} {m : BitVec c.msgBits}

/-- Where a command's own effect is a possible change where its checks pass, so is the checked command (R254). -/
theorem Engine.attempt_canBecome {legal : List Phase} {act : Engine c → Engine c}
    (hact : e.err = false → e.phase ∈ legal → e.CanBecome m (act e)) : e.CanBecome m (e.attempt legal act) := by
  obtain ⟨-, heq⟩ | ⟨he, -, heq⟩ | ⟨he, hp, heq⟩ := e.attempt_cases act legal
  · rw [heq]; exact .same
  · rw [heq]; exact .raised he _ nofun
  · rw [heq]; exact hact he hp

/-- A permutation command, legal in IDLE only, that writes S and RND. -/
theorem Engine.attempt_idle_canBecome (A : StateArray) (r : Fin 24) {act : Engine c → Engine c}
    (hact : act e = { e with array := A, rnd := r }) : e.CanBecome m (e.attempt [.idle] act) :=
  attempt_canBecome fun he hp => hact ▸ .permuted he (by simpa using hp) A r

theorem Engine.after_canBecome (i : Instr) : e.CanBecome m (e.after m i) := by
  cases i with
  | nop => exact .same
  | init => exact .reset
  | theta => exact attempt_idle_canBecome _ _ rfl
  | rho => exact attempt_idle_canBecome _ _ rfl
  | pi => exact attempt_idle_canBecome _ _ rfl
  | chi => exact attempt_idle_canBecome _ _ rfl
  | iota => exact attempt_idle_canBecome _ _ rfl
  | round => exact attempt_idle_canBecome _ _ rfl
  | permute => exact attempt_idle_canBecome _ _ rfl
  | load => exact attempt_canBecome fun he hp => .loaded he (by simpa using hp)
  | absorb => exact attempt_canBecome fun he hp => .absorbed he (by simpa using hp)
  | squeeze => exact attempt_canBecome fun he hp => .squeezed he (by simpa using hp)
  | hash => exact attempt_canBecome fun he hp => .hashed he (by simpa using hp)

theorem Engine.afterCode_canBecome (code : CmdWord) : e.CanBecome m (e.afterCode m code) := by
  unfold Engine.afterCode
  split
  · exact after_canBecome _
  · cases h : e.err with
    | true => rw [e.gated_err _ h]; exact .same
    | false => rw [e.gated_ok _ h]; exact .raised h _ nofun

/-- A step keeps the build and changes the registers in one of the listed ways only. -/
theorem step_canBecome {s t : State} (h : step s = .next t) :
    ∃ (f : Engine s.cfg) (n : BitVec s.cfg.msgBits) (rest : List (HostMove s.cfg)),
      t = ⟨s.cfg, f, n, rest⟩ ∧ s.eng.CanBecome s.msgIn f := by
  obtain ⟨c, e, m, moves⟩ := s
  obtain ⟨-, rfl⟩ | ⟨n, rest, -, rfl⟩ | ⟨code, rest, -, rfl⟩ | ⟨w, rest, -, rfl⟩ | ⟨rest, -, rfl⟩ :=
    step_cases e m moves h
  · exact ⟨_, _, _, rfl, .same⟩
  · exact ⟨_, _, _, rfl, .same⟩
  · exact ⟨_, _, _, rfl, e.afterCode_canBecome code⟩
  · exact ⟨_, _, _, rfl, .reset⟩
  · exact ⟨_, _, _, rfl, .same⟩

/-- The 16-bit block counter does not wrap while a block is left (R7). -/
theorem toNat_blk_add_one (h : e.blk.toNat < nblk c.msgBits) : (e.blk + 1).toNat = e.blk.toNat + 1 := by
  have hmax := nblk_le c.legal.2
  have hwrap : e.blk.toNat + 1 < 2 ^ 16 := by omega
  simpa using BitVec.toNat_add_of_lt (x := e.blk) (y := 1) hwrap

/-- NBLK is held by the block counter exactly (R7). -/
theorem toNat_ofNat_nblk (c : Config) : (BitVec.ofNat 16 (nblk c.msgBits)).toNat = nblk c.msgBits := by
  have hmax := nblk_le c.legal.2
  rw [BitVec.toNat_ofNat, Nat.mod_eq_of_lt (by omega)]

/-- While a block is left, ABSORB takes an array that has absorbed BLK blocks to one that has absorbed one more. -/
theorem absorbBlock_blockOperand (h : e.blk.toNat < nblk c.msgBits)
    (hA : e.array = absorbPrefix e.msg e.blk.toNat) :
    absorbBlock e.array e.blockOperand = absorbPrefix e.msg (e.blk + 1).toNat := by
  rw [toNat_blk_add_one h, Engine.blockOperand, if_pos h, hA]
  rfl

/-- Digest bit `i` is bit `i` of the flattened state (R213). -/
theorem getLsbD_squeeze (A : StateArray) {i : Nat} (h : i < 256) : (squeeze A).getLsbD i = sbit A i := by
  have h' : i < 1600 := by omega
  simp [squeeze, statePrefix, h, h']

/-- R48 items 1 and 7 speak of ERR, ERRCODE and BLK only. -/
theorem Engine.Ranges.of_blk_le (hr : e.Ranges) (herr : f.err = e.err) (hcode : f.errCode = e.errCode)
    (hblk : f.blk.toNat ≤ nblk c.msgBits) : f.Ranges :=
  ⟨by rw [herr, hcode]; exact hr.err_iff, hblk⟩

theorem Engine.reset_ranges (c : Config) : (Engine.reset c).Ranges :=
  ⟨by simp, by simp⟩

theorem Engine.Ranges.canBecome (hr : e.Ranges) (hleft : e.phase = .absorb → e.blk.toNat < nblk c.msgBits)
    (h : e.CanBecome m f) : f.Ranges := by
  cases h with
  | same => exact hr
  | reset => exact reset_ranges c
  | raised _ k hk => exact ⟨by simp [hk], hr.blk_le⟩
  | permuted => exact hr.of_blk_le rfl rfl hr.blk_le
  | loaded => exact hr.of_blk_le rfl rfl (Nat.zero_le _)
  | absorbed _ hp => exact hr.of_blk_le rfl rfl ((toNat_blk_add_one (hleft hp)).trans_le (hleft hp))
  | squeezed => exact hr.of_blk_le rfl rfl hr.blk_le
  | hashed => exact hr.of_blk_le rfl rfl (toNat_ofNat_nblk c).le

/-- In IDLE the counters agree with the phase as soon as BLK is 0. -/
theorem Engine.sequenced_of_idle (hp : e.phase = .idle) (hblk : e.blk = 0) : e.Sequenced where
  idle _ := hblk
  absorb h := nomatch hp.symm.trans h
  squeeze h := nomatch hp.symm.trans h
  done h := nomatch hp.symm.trans h

/-- In DONE the counters agree with the phase as soon as RND is 0 and BLK is NBLK. -/
theorem Engine.sequenced_of_done (hp : e.phase = .done) (hrnd : e.rnd = 0) (hblk : e.blk.toNat = nblk c.msgBits) :
    e.Sequenced where
  idle h := nomatch hp.symm.trans h
  absorb h := nomatch hp.symm.trans h
  squeeze h := nomatch hp.symm.trans h
  done _ := ⟨hrnd, hblk⟩

theorem Engine.Sequenced.canBecome (hs : e.Sequenced) (h : e.CanBecome m f) : f.Sequenced := by
  cases h with
  | same => exact hs
  | reset => exact sequenced_of_idle rfl rfl
  | raised => exact ⟨hs.idle, hs.absorb, hs.squeeze, hs.done⟩
  | permuted _ hp => exact sequenced_of_idle hp (hs.idle hp)
  | loaded => exact ⟨nofun, fun _ => ⟨rfl, nblk_pos c.legal.1⟩, nofun, nofun⟩
  | absorbed _ hp =>
    obtain ⟨hrnd, hlt⟩ := hs.absorb hp
    have hsucc := toNat_blk_add_one hlt
    by_cases hlast : (e.blk + 1).toNat = nblk c.msgBits
    · rw [if_pos hlast]
      exact ⟨nofun, nofun, fun _ => ⟨hrnd, hlast⟩, nofun⟩
    · have hleft : (e.blk + 1).toNat < nblk c.msgBits := by omega
      rw [if_neg hlast, hp]
      exact ⟨nofun, fun _ => ⟨hrnd, hleft⟩, nofun, nofun⟩
  | squeezed _ hp =>
    obtain ⟨hrnd, hblk⟩ := hs.squeeze hp
    exact sequenced_of_done rfl hrnd hblk
  | hashed => exact sequenced_of_done rfl rfl (toNat_ofNat_nblk c)

/-- In IDLE nothing is claimed of S and DIG. -/
theorem Engine.absorbed_of_idle (hp : e.phase = .idle) : e.Absorbed where
  array h := absurd hp h
  digest h := nomatch hp.symm.trans h

theorem Engine.Absorbed.canBecome (ha : e.Absorbed) (hs : e.Sequenced) (h : e.CanBecome m f) : f.Absorbed := by
  cases h with
  | same => exact ha
  | reset => exact absorbed_of_idle rfl
  | raised => exact ⟨ha.array, ha.digest⟩
  | permuted _ hp => exact absorbed_of_idle hp
  | loaded => exact ⟨fun _ => rfl, nofun⟩
  | absorbed _ hp =>
    obtain ⟨-, hlt⟩ := hs.absorb hp
    refine ⟨fun _ => absorbBlock_blockOperand hlt (ha.array (by simp [hp])), fun hdone => ?_⟩
    have hne : (if (e.blk + 1).toNat = nblk c.msgBits then Phase.squeeze else e.phase) ≠ .done := by
      split <;> simp [hp]
    exact absurd hdone hne
  | squeezed _ hp => exact ⟨fun _ => ha.array (by simp [hp]), fun _ _ => getLsbD_squeeze e.array⟩
  | hashed =>
    refine ⟨fun _ => ?_, fun _ _ => getLsbD_squeeze (absorb m)⟩
    rw [toNat_ofNat_nblk c, absorb]

theorem Engine.reset_inv (c : Config) : (Engine.reset c).Inv :=
  ⟨reset_ranges c, sequenced_of_idle rfl rfl, absorbed_of_idle rfl⟩

theorem Engine.Inv.canBecome (hi : e.Inv) (h : e.CanBecome m f) : f.Inv := by
  obtain ⟨hr, hs, ha⟩ := hi
  exact ⟨hr.canBecome (fun hp => (hs.absorb hp).2) h, hs.canBecome h, ha.canBecome hs h⟩

/-- In DONE all NBLK blocks are absorbed and DIG holds the first 256 bits (R48 items 5 and 6). -/
theorem Engine.Inv.dig_eq (hi : e.Inv) (hp : e.phase = .done) : e.dig = keccak256 e.msg := by
  obtain ⟨-, hs, ha⟩ := hi
  obtain ⟨-, hblk⟩ := hs.done hp
  have harray : e.array = absorb e.msg := by rw [absorb, ← hblk]; exact ha.array (by simp [hp])
  refine BitVec.eq_of_getLsbD_eq fun i h => ?_
  rw [ha.digest hp i h, harray, keccak256, getLsbD_squeeze _ h]

end change

/-- Settles O51: each change a step can make to the registers keeps each group of invariants. -/
theorem everyStepKeepsTheInvariants : Obligations.EveryStepKeepsTheInvariants := by
  refine ⟨Engine.reset_inv, fun s t hi hstep => ?_⟩
  obtain ⟨f, n, rest, rfl, hf⟩ := step_canBecome hstep
  exact hi.canBecome hf

/-- Settles O53: only ABSORB and HASH raise BLK, ABSORB by one and with a block left, HASH to NBLK. -/
theorem everyStepKeepsTheRanges : Obligations.EveryStepKeepsTheRanges := by
  intro s t hr hleft hstep
  obtain ⟨f, n, rest, rfl, hf⟩ := step_canBecome hstep
  exact hr.canBecome hleft hf

/-- Settles O54: in DONE the array is `Absorb(M)` and DIG its first 256 bits. -/
theorem digestInDoneIsKeccak256 : Obligations.DigestInDoneIsKeccak256 :=
  fun _ _ hi hp => hi.dig_eq hp

/-- Settles O52: after reset the phase is IDLE, where the invariants ask for BLK = 0 and no error only. -/
theorem resetMeetsTheInvariants : Obligations.ResetMeetsTheInvariants :=
  ⟨Engine.reset_inv, Engine.reset_inv Config.standard⟩

end Sys2Proof.Machine
end

section
/-! PROOFS. The fields of STATUS (R40). -/

namespace Sys2Proof.Machine

section slices
variable {w : Nat} (x : BitVec w) {k start len : Nat}

/-- A value shifted to position `k` of a 32-bit word is read back by the slice of its own width at `k`. -/
theorem extractLsb'_shiftLeft_same (h : k + w ≤ 32) : (x.setWidth 32 <<< k).extractLsb' k w = x := by
  refine BitVec.eq_of_getLsbD_eq fun i hi => ?_
  have hlt : k + i < 32 := by omega
  simp [hi, hlt]

/-- A slice below a shifted value reads zeros. -/
theorem extractLsb'_shiftLeft_below (h : start + len ≤ k) :
    (x.setWidth 32 <<< k).extractLsb' start len = 0 := by
  refine BitVec.eq_of_getLsbD_eq fun i hi => ?_
  have hlt : start + i < k := by omega
  simp [hlt]

/-- A slice above a shifted value reads zeros. -/
theorem extractLsb'_shiftLeft_above (h : k + w ≤ start) :
    (x.setWidth 32 <<< k).extractLsb' start len = 0 := by
  refine BitVec.eq_of_getLsbD_eq fun i hi => ?_
  have hge : w ≤ start + i - k := by omega
  simp [BitVec.getLsbD_of_ge x _ hge]

end slices

/-- RND fits its five bits (R33). -/
theorem toNat_ofNat_rnd (r : Fin 24) : (BitVec.ofNat 5 r.val).toNat = r.val := by
  have hlt := r.isLt
  rw [BitVec.toNat_ofNat, Nat.mod_eq_of_lt (by omega)]

theorem ErrCode.toNat_bits_le (k : ErrCode) : k.bits.toNat ≤ 2 := by
  cases k <;> decide

section fields
variable {c : Config} (e : Engine c)

/-- STATUS with every field in one form: its value in its own width, shifted to its place (R40). -/
theorem Engine.statusWord_eq :
    e.statusWord =
      e.phase.bits.setWidth 32 <<< 0 ||| (BitVec.ofBool e.err).setWidth 32 <<< 2 |||
        e.errCode.bits.setWidth 32 <<< 4 ||| (BitVec.ofNat 5 e.rnd.val).setWidth 32 <<< 8 |||
        e.blk.setWidth 32 <<< 16 := by
  have hrnd : (BitVec.ofNat 5 e.rnd.val).setWidth 32 = BitVec.ofNat 32 e.rnd.val := by
    rw [← BitVec.ofNat_toNat, toNat_ofNat_rnd]
  rw [hrnd, BitVec.shiftLeft_zero, Engine.statusWord]

/-- Every slice of STATUS is the same slice of each field, put together. -/
theorem Engine.statusWord_extractLsb' (start len : Nat) :
    e.statusWord.extractLsb' start len =
      (e.phase.bits.setWidth 32 <<< 0).extractLsb' start len |||
        ((BitVec.ofBool e.err).setWidth 32 <<< 2).extractLsb' start len |||
        (e.errCode.bits.setWidth 32 <<< 4).extractLsb' start len |||
        ((BitVec.ofNat 5 e.rnd.val).setWidth 32 <<< 8).extractLsb' start len |||
        (e.blk.setWidth 32 <<< 16).extractLsb' start len := by
  simp only [e.statusWord_eq, BitVec.extractLsb'_or]

theorem Engine.statusWord_phase : e.statusWord.extractLsb' 0 2 = e.phase.bits := by
  rw [statusWord_extractLsb', extractLsb'_shiftLeft_same _ (by decide)]
  simp [extractLsb'_shiftLeft_below]

theorem Engine.statusWord_errCode : e.statusWord.extractLsb' 4 4 = e.errCode.bits := by
  rw [statusWord_extractLsb', extractLsb'_shiftLeft_same _ (by decide)]
  simp [extractLsb'_shiftLeft_below, extractLsb'_shiftLeft_above, -BitVec.shiftLeft_zero]

theorem Engine.statusWord_rnd : e.statusWord.extractLsb' 8 5 = BitVec.ofNat 5 e.rnd.val := by
  rw [statusWord_extractLsb', extractLsb'_shiftLeft_same _ (by decide)]
  simp [extractLsb'_shiftLeft_below, extractLsb'_shiftLeft_above, -BitVec.shiftLeft_zero]

theorem Engine.statusWord_reserved : e.statusWord.extractLsb' 13 3 = 0 := by
  rw [statusWord_extractLsb']
  simp [extractLsb'_shiftLeft_below, extractLsb'_shiftLeft_above, -BitVec.shiftLeft_zero]

theorem Engine.statusWord_blk : e.statusWord.extractLsb' 16 16 = e.blk := by
  rw [statusWord_extractLsb', extractLsb'_shiftLeft_same _ (by decide)]
  simp [extractLsb'_shiftLeft_above, -BitVec.shiftLeft_zero]

theorem Engine.statusWord_err : e.statusWord.getLsbD 2 = e.err := by
  simp [e.statusWord_eq]

theorem Engine.statusWord_bit3 : e.statusWord.getLsbD 3 = false := by
  simp [e.statusWord_eq]

theorem Engine.reset_statusWord (c : Config) : (Engine.reset c).statusWord = 0 := by
  simp [Engine.statusWord, Phase.bits, ErrCode.bits]

end fields

/-- Settles O50: each field is its own slice of the word. -/
theorem statusWordFields : Obligations.StatusWordFields := by
  refine ⟨fun c e => ?_, Engine.reset_statusWord⟩
  have herrCode := e.errCode.toNat_bits_le
  have hrnd : e.rnd.val ≤ 23 := Nat.le_of_lt_succ e.rnd.isLt
  rw [e.statusWord_errCode, e.statusWord_rnd, toNat_ofNat_rnd]
  exact ⟨e.statusWord_phase, e.statusWord_err, e.statusWord_bit3, rfl, rfl, e.statusWord_reserved,
    e.statusWord_blk, herrCode, hrnd⟩

end Sys2Proof.Machine
end

section
/-! PROOFS. The host's reads of the outputs and its drives of `msg_in` (R66). -/

namespace Sys2Proof.Machine

section moves
variable (c : Config) (e : Engine c) (m : BitVec c.msgBits) (l : List (HostMove c))

/-- The outputs show the engine's registers alone, neither `msg_in` nor the host's coming moves (R46). -/
@[simp] theorem State.mk_observation :
    (State.mk c e m l).observation = (e.statusWord, e.dig, bitsFromState e.array) := rfl

theorem runSteps_replicate_read (n : Nat) :
    runSteps n ⟨c, e, m, List.replicate n .read ++ l⟩ = .next ⟨c, e, m, l⟩ := by
  induction n with
  | zero => simp
  | succ n ih =>
    rw [List.replicate_succ, List.cons_append, runSteps_next (step_mk_read c e m _)]
    exact ih

end moves

/-- Settles O9: each read takes itself off the host's moves, and the outputs do not look at `msg_in`. -/
theorem readingAndDrivingChangeNoRegister : Obligations.ReadingAndDrivingChangeNoRegister := by
  refine ⟨fun ⟨c, e, m, _⟩ n rest => ?_, fun ⟨c, e, m, _⟩ n rest => ⟨?_, ?_⟩⟩
  · exact runSteps_replicate_read c e m rest n
  · exact step_mk_drive c e m n rest
  · simp only [State.mk_withScript, State.mk_withMsgIn, State.mk_observation]

end Sys2Proof.Machine
end

section
/-! PROOFS. The decoder on command codes and on reserved codes (R84 to R86), and one step on each (R80, R85). -/

namespace Sys2Proof.Machine

@[simp] theorem decodeWord_encode (i : Instr) : decodeWord (encode i) = .cmd i := by
  cases i <;> rfl

/-- An opcode-table word of the full eight bits is the word itself (R81). -/
@[simp] theorem tableWord_toNat (code : CmdWord) : tableWord 8 code.toNat = code := by
  rw [tableWord, Nat.mod_eq_of_lt code.isLt, BitVec.ofNat_toNat, BitVec.setWidth_eq]

/-- An opcode-table word answers a command exactly when the decoder's verdict on its bits is that command. -/
theorem decodeTableWord_eq_some_iff {nbits w : Nat} {i : Instr} :
    decodeTableWord nbits w = some i ↔ decodeWord (tableWord nbits w) = .cmd i := by
  cases h : decodeWord (tableWord nbits w) <;> simp [decodeTableWord, h]

/-- The four ranges of R85. -/
theorem decodeWord_eq_reserved_iff : ∀ c : CmdWord, decodeWord c = .reserved c ↔
    (0x02 ≤ c.toNat ∧ c.toNat ≤ 0x0F) ∨ (0x17 ≤ c.toNat ∧ c.toNat ≤ 0x1F) ∨
    (0x24 ≤ c.toNat ∧ c.toNat ≤ 0x2F) ∨ (0x30 ≤ c.toNat ∧ c.toNat ≤ 0xFF) := by
  decide +kernel

section moves
variable {c : Config} (e : Engine c) (m : BitVec c.msgBits) (l : List (HostMove c)) {code w : CmdWord}

theorem step_mk_cmd {i : Instr} (h : decodeWord code = .cmd i) :
    step ⟨c, e, m, .issue code :: l⟩ = exec i ⟨c, e, m, l⟩ := by
  rw [step_mk_issue, issue_cmd h]

/-- With ERR = 0 a reserved code raises ILLEGAL_CMD (R85, R254). -/
theorem step_mk_reserved (h : decodeWord code = .reserved w) (he : e.err = false) :
    step ⟨c, e, m, .issue code :: l⟩ = .next ⟨c, e.raiseCmdError .illegalCmd, m, l⟩ := by
  rw [step_mk_issue, issue_reserved h, State.mk_refuseCode, e.gated_ok _ he]

end moves

/-- An error raised with ERR = 0 is seen in the registers. -/
theorem Engine.raiseCmdError_ne {c : Config} {e : Engine c} (he : e.err = false) (k : ErrCode) :
    e.raiseCmdError k ≠ e := by
  intro h
  have herr : (e.raiseCmdError k).err = false := by rw [h, he]
  simp at herr

/-- Every step answers a next state of the same build: no host move stops the engine (R256, R288). -/
theorem step_next (s : State) : ∃ t, step s = .next t ∧ t.cfg = s.cfg := by
  obtain ⟨c, e, m, moves⟩ := s
  match moves with
  | [] => exact ⟨_, step_mk_nil c e m, rfl⟩
  | .drive n :: l => exact ⟨_, step_mk_drive c e m n l, rfl⟩
  | .issue code :: l => exact ⟨_, step_mk_code e m l code, rfl⟩
  | .reset w :: l => exact ⟨_, step_mk_reset c e m l w, rfl⟩
  | .read :: l => exact ⟨_, step_mk_read c e m l, rfl⟩

/-- Settles O3: the ranges are checked word by word; presented with ERR = 0, such a code only raises the error. -/
theorem reservedCodesAreRefused : Obligations.ReservedCodesAreRefused := by
  refine ⟨decodeWord_eq_reserved_iff, by decide +kernel, ?_⟩
  rintro ⟨c, e, m, _⟩ code rest hcode he
  have hstep := step_mk_reserved e m rest hcode he
  refine ⟨hstep, fun hnop => ?_⟩
  have heq : (State.mk c (e.raiseCmdError .illegalCmd) m rest) = ⟨c, e, m, rest⟩ := by
    injection hstep.symm.trans hnop
  exact e.raiseCmdError_ne he .illegalCmd (by injection heq)

/-- Settles O8, by induction on the number of steps. -/
theorem everyRunCompletes : Obligations.EveryRunCompletes := by
  intro k
  induction k with
  | zero => exact fun s => ⟨s, runSteps_zero s, rfl⟩
  | succ k ih =>
    intro s
    obtain ⟨t, hstep, hcfg⟩ := step_next s
    obtain ⟨u, hrun, hcfg'⟩ := ih t
    exact ⟨u, (runSteps_next hstep).trans hrun, hcfg'.trans hcfg⟩

/-- Settles O1: `encode` and `decodeWord` agree on the 13 commands, and a code's number holds all its bits. -/
theorem everyCommandDecodesFromItsCode : Obligations.EveryCommandDecodesFromItsCode := by
  intro i _
  refine ⟨decodeWord_encode i, ?_⟩
  rw [decodeTableWord_eq_some_iff, tableWord_toNat, decodeWord_encode]

/-- Settles O2: the words, bit by bit, are the codes of R84. -/
theorem opcodeWordsDecodeAsTheMapSays : Obligations.OpcodeWordsDecodeAsTheMapSays :=
  ⟨decodeWord_encode .nop, decodeWord_encode .init, decodeWord_encode .theta, decodeWord_encode .chi,
    decodeWord_encode .iota, decodeWord_encode .permute, decodeWord_encode .load, decodeWord_encode .hash⟩

/-- Settles O7: `withFetchWord` presents the word's code, and a presented code is performed as its command. -/
theorem stepRunsThePresentedCommand : Obligations.StepRunsThePresentedCommand := by
  constructor
  · rintro ⟨c, e, m, _⟩ code i rest h
    exact step_mk_cmd e m rest h
  · rintro ⟨c, e, m, l⟩ w i h
    exact step_mk_cmd e m l (decodeTableWord_eq_some_iff.mp h)

end Sys2Proof.Machine
end

section
/-!
PROOFS. The assembler on programs (R87): which programs have an encoding, and what a program inside a larger one emits.
-/

namespace Sys2Proof.Machine

/-- A program of commands emits one item a command, whatever surrounds it. -/
theorem expandLines_map_cmd (commands : List Instr) (here : List AsmItem) :
    expandLines (commands.map .cmd) [] here = some (here ++ commands.map fun i => .code (encode i)) := by
  induction commands generalizing here with
  | nil => simp [expandLines]
  | cons i rest ih => simp [expandLines, ih]

/-- The items of a list of codes emit these codes. -/
theorem filterMap_emits_code (commands : List Instr) :
    (commands.map fun i => AsmItem.code (encode i)).filterMap AsmItem.emits = commands.map encode := by
  induction commands with
  | nil => rfl
  | cons i rest ih => simp [AsmItem.emits, ih]

/-- A program with an encoding expands to items that emit it. -/
theorem programEncoding_eq_some_iff {lines : List AsmLine} {codes : List CmdWord} :
    programEncoding lines = some codes ↔
      ∃ items, expandProgram lines = some items ∧ items.filterMap AsmItem.emits = codes := by
  simp [programEncoding]

/-- Settles O4, by induction on the commands. -/
theorem commandProgramsRoundTrip : Obligations.CommandProgramsRoundTrip := by
  intro commands
  constructor
  · exact programEncoding_eq_some_iff.mpr ⟨_, expandLines_map_cmd commands [], filterMap_emits_code commands⟩
  · simp [decodeWord_encode]

/-- Expansion answers items exactly when the lines left close the repeats that are open. -/
theorem isSome_expandLines (lines : List AsmLine) (stack : List (Nat × List AsmItem)) (here : List AsmItem) :
    (expandLines lines stack here).isSome = wellNested stack.length lines := by
  induction lines generalizing stack here with
  | nil => cases stack <;> simp [expandLines, wellNested]
  | cons line rest ih =>
    cases line with
    | blank => simpa [expandLines, wellNested] using ih _ _
    | cmd i => simpa [expandLines, wellNested] using ih _ _
    | raw c => simpa [expandLines, wellNested] using ih _ _
    | reset => simpa [expandLines, wellNested] using ih _ _
    | rep n =>
      by_cases hn : 1 ≤ n
      · simpa [expandLines, wellNested, hn] using ih ((n, here) :: stack) []
      · simp [expandLines, wellNested, hn]
    | endr =>
      cases stack with
      | nil => simp [expandLines, wellNested]
      | cons frame stack => simpa [expandLines, wellNested] using ih _ _

/-- The open repeats and the items of the innermost body (the two accumulators of `expandLines`) of a program that is
read inside another one: `outer` are the other program's open repeats, and `pre` its items so far. The items of the
outermost body follow `pre`. -/
def nestIn (outer : List (Nat × List AsmItem)) (pre : List AsmItem) :
    List (Nat × List AsmItem) → List AsmItem → List (Nat × List AsmItem) × List AsmItem
  | [], here => (outer, pre ++ here)
  | (n, before) :: stack, here =>
    ((n, (nestIn outer pre stack before).2) :: (nestIn outer pre stack before).1, here)

section nested
variable (outer : List (Nat × List AsmItem)) (pre : List AsmItem)

/-- New items join the innermost body, wherever the program is read. -/
@[simp] theorem nestIn_append (stack : List (Nat × List AsmItem)) (here items : List AsmItem) :
    nestIn outer pre stack (here ++ items) =
      ((nestIn outer pre stack here).1, (nestIn outer pre stack here).2 ++ items) := by
  cases stack <;> simp [nestIn]

/-- Lines that close their own repeats do inside another program what they do alone. -/
theorem expandLines_nestIn (ys : List AsmLine) {xs : List AsmLine} {stack : List (Nat × List AsmItem)}
    {here items : List AsmItem} (h : expandLines xs stack here = some items) :
    expandLines (xs ++ ys) (nestIn outer pre stack here).1 (nestIn outer pre stack here).2 =
      expandLines ys outer (pre ++ items) := by
  induction xs generalizing stack here with
  | nil =>
    cases stack with
    | nil =>
      obtain rfl : here = items := by simpa [expandLines] using h
      rfl
    | cons frame stack => simp [expandLines] at h
  | cons line rest ih =>
    cases line with
    | blank => exact ih h
    | cmd i => simpa [expandLines] using ih h
    | raw c => simpa [expandLines] using ih h
    | reset => simpa [expandLines] using ih h
    | rep n =>
      by_cases hn : 1 ≤ n
      · simp only [expandLines, if_pos hn] at h
        simpa [expandLines, hn, nestIn] using ih h
      · simp [expandLines, hn] at h
    | endr =>
      cases stack with
      | nil => simp [expandLines] at h
      | cons frame stack => simpa [expandLines, nestIn] using ih h

/-- A whole program at the start of the lines left adds its items to the innermost body. -/
theorem expandLines_append (ys : List AsmLine) {xs : List AsmLine} {items : List AsmItem}
    (h : expandProgram xs = some items) : expandLines (xs ++ ys) outer pre = expandLines ys outer (pre ++ items) := by
  simpa [nestIn] using expandLines_nestIn outer pre ys h

end nested

/-- A repeat between two programs: its body's items stand between theirs, `n` times over. -/
theorem expandProgram_repeat {before body after : List AsmLine} {u v w : List AsmItem} {n : Nat} (hn : 1 ≤ n)
    (hu : expandProgram before = some u) (hv : expandProgram body = some v) (hw : expandProgram after = some w) :
    expandProgram (before ++ .rep n :: body ++ .endr :: after) = some (u ++ (List.replicate n v).flatten ++ w) := by
  calc expandLines (before ++ .rep n :: body ++ .endr :: after) [] []
      = expandLines (.rep n :: (body ++ .endr :: after)) [] u := by
        rw [List.append_assoc, List.cons_append, expandLines_append [] [] _ hu, List.nil_append]
    _ = expandLines (body ++ .endr :: after) [(n, u)] [] := by rw [expandLines, if_pos hn]
    _ = expandLines (.endr :: after) [(n, u)] v := by rw [expandLines_append _ _ _ hv, List.nil_append]
    _ = expandLines (after ++ []) [] (u ++ (List.replicate n v).flatten) := by rw [expandLines, List.append_nil]
    _ = some (u ++ (List.replicate n v).flatten ++ w) := by rw [expandLines_append _ _ _ hw, expandLines]

/-- Settles O5: expansion follows the nesting line by line, and a program does inside another what it does alone. -/
theorem repeatsExpandExactlyWhenWellFormed : Obligations.RepeatsExpandExactlyWhenWellFormed := by
  constructor
  · intro lines
    rw [programEncoding, Option.isSome_map, wellFormedProgram]
    exact isSome_expandLines lines [] []
  · intro before body after u v w n hn hu hv hw
    obtain ⟨uItems, huItems, rfl⟩ := programEncoding_eq_some_iff.mp hu
    obtain ⟨vItems, hvItems, rfl⟩ := programEncoding_eq_some_iff.mp hv
    obtain ⟨wItems, hwItems, rfl⟩ := programEncoding_eq_some_iff.mp hw
    refine programEncoding_eq_some_iff.mpr ⟨_, expandProgram_repeat hn huItems hvItems hwItems, ?_⟩
    simp [List.filterMap_flatten]

end Sys2Proof.Machine
end

section
/-! PROOFS. The forms of a line of program text (R87). -/

namespace Sys2Proof.Machine

/-- A comment is no part of a line. -/
theorem lineWords_comment (line text : List Char) : lineWords (line ++ ';' :: text) = lineWords line := by
  have hcut : (line ++ ';' :: text).takeWhile (· != ';') = line.takeWhile (· != ';') := by
    rw [List.takeWhile_append, List.takeWhile_cons_of_neg (by simp)]
    split
    · next hall => rw [List.append_nil, (List.takeWhile_prefix _).eq_of_length hall]
    · rfl
  rw [lineWords, hcut, lineWords]

/-- A line is read by its words alone. -/
theorem parseLine_congr {line line' : List Char} (h : lineWords line = lineWords line') :
    parseLine line = parseLine line' := by
  rw [parseLine, parseLine, h]

theorem parseLine_comment (line text : List Char) : parseLine (line ++ ';' :: text) = parseLine line :=
  parseLine_congr (lineWords_comment line text)

theorem parseLine_mnemonic (i : Instr) : parseLine i.mnemonic.toList = some (.cmd i) := by
  cases i <;> decide +kernel

/-- A blank after the mnemonic ends its word and starts no other. -/
theorem lineWords_mnemonic_blank (i : Instr) :
    lineWords (i.mnemonic.toList ++ [' ']) = lineWords i.mnemonic.toList := by
  cases i <;> decide +kernel

/-- Settles O6: a line's comment and blanks change none of its words, and each form is read by its words. -/
theorem linesReadAsTheSyntaxSays : Obligations.LinesReadAsTheSyntaxSays := by
  refine ⟨parseLine_mnemonic, fun i text => ?_, fun text => ?_, by decide +kernel, by decide +kernel,
    by decide +kernel, by decide +kernel⟩
  · calc parseLine (i.mnemonic.toList ++ ' ' :: ';' :: text)
        = parseLine (i.mnemonic.toList ++ [' '] ++ ';' :: text) := by rw [List.append_assoc, List.singleton_append]
      _ = parseLine (i.mnemonic.toList ++ [' ']) := parseLine_comment _ text
      _ = parseLine i.mnemonic.toList := parseLine_congr (lineWords_mnemonic_blank i)
      _ = some (.cmd i) := parseLine_mnemonic i
  · calc parseLine (';' :: text) = parseLine [] := parseLine_comment [] text
      _ = some .blank := by decide +kernel

end Sys2Proof.Machine
end

section
/-! PROOFS. Left rotation of a lane (R113), read bit by bit. -/

namespace Sys2Proof.Machine

section rotation
variable (v : Lane) (a b n : Fin 64)

theorem rotl64_eq_rotateLeft : rotl64 v n = v.rotateLeft n.val := by
  rw [rotl64, BitVec.rotateLeft_def, Nat.mod_eq_of_lt n.isLt]

/-- Bit `z` comes from bit `z - n` modulo 64. -/
theorem getLsbD_rotl64 {z : Nat} (hz : z < 64) : (rotl64 v n).getLsbD z = v.getLsbD ((z + 64 - n.val) % 64) := by
  rw [rotl64_eq_rotateLeft, BitVec.getLsbD_rotateLeft, Nat.mod_eq_of_lt n.isLt]
  by_cases hwrap : z < n.val
  · have hsource : (z + 64 - n.val) % 64 = 64 - n.val + z := by omega
    simp [hwrap, hsource]
  · have hsource : (z + 64 - n.val) % 64 = z - n.val := by omega
    simp [hwrap, hz, hsource]

@[simp] theorem rotl64_zero_distance : rotl64 v 0 = v :=
  lane_ext fun z hz => by
    have hsource : (z + 64 - (0 : Fin 64).val) % 64 = z := by simp [Nat.mod_eq_of_lt hz]
    rw [getLsbD_rotl64 v 0 hz, hsource]

/-- The number form of R113. It holds at distance 0 too, where the right shift leaves nothing. -/
theorem toNat_rotl64 :
    (rotl64 v n).toNat = ((v.toNat <<< n.val) ||| (v.toNat >>> (64 - n.val))) % 2 ^ 64 := by
  have hright : v.toNat >>> (64 - n.val) < 2 ^ 64 := (Nat.shiftRight_le _ _).trans_lt v.isLt
  rw [rotl64, BitVec.toNat_or, BitVec.toNat_shiftLeft, BitVec.toNat_ushiftRight, Nat.or_mod_two_pow,
    Nat.mod_eq_of_lt hright]

/-- Rotations compose by adding their distances modulo 64. -/
theorem rotl64_rotl64 : rotl64 (rotl64 v a) b = rotl64 v (a + b) :=
  lane_ext fun z hz => by
    have hmid : (z + 64 - b.val) % 64 < 64 := Nat.mod_lt _ (by decide)
    have hsource : ((z + 64 - b.val) % 64 + 64 - a.val) % 64 = (z + 64 - (a + b).val) % 64 := by
      rw [Fin.val_add]; omega
    rw [getLsbD_rotl64 _ b hz, getLsbD_rotl64 v a hmid, getLsbD_rotl64 v _ hz, hsource]

/-- A lane whose bits are all equal is fixed by every rotation. -/
theorem rotl64_of_constant {bit : Bool} (h : ∀ z, z < 64 → v.getLsbD z = bit) : rotl64 v n = v :=
  lane_ext fun z hz => by rw [getLsbD_rotl64 v n hz, h z hz, h _ (Nat.mod_lt _ (by decide))]

/-- Left by 63 is right by 1. -/
theorem rotl64_63 : rotl64 v 63 = v.rotateRight 1 := by
  rw [rotl64, BitVec.rotateRight_def]
  exact BitVec.or_comm _ _

end rotation

/-- Settles O24: every clause on all lanes follows from where each bit comes from, or from the number form. -/
theorem rotationMovesBitsUp : Obligations.RotationMovesBitsUp := by
  refine ⟨fun v n z => getLsbD_rotl64 v n, rotl64_zero_distance, fun v n _ => toNat_rotl64 v n, rotl64_rotl64,
    fun n => ⟨?zeros, ?ones⟩, rotl64_63, by decide, by decide⟩
  case zeros => exact rotl64_of_constant 0 n fun _ _ => BitVec.getLsbD_zero
  case ones => exact rotl64_of_constant (BitVec.allOnes 64) n fun _ hz =>
    BitVec.getLsbD_allOnes.trans (decide_eq_true hz)

end Sys2Proof.Machine
end

section
/-! PROOFS. Packing 64 bits to a lane and unpacking them (R114 to R116). -/

namespace Sys2Proof.Machine

/-- A packed sequence, as a number, is the weighted sum of its bits. -/
theorem toNat_ofBits (n : Nat) (f : Nat → Bool) :
    (ofBits n f).toNat = ∑ k ∈ Finset.range n, (f k).toNat * 2 ^ k := by
  induction n with
  | zero => rfl
  | succ n ih => rw [ofBits, BitVec.toNat_cons', ih, Finset.sum_range_succ, Nat.shiftLeft_eq, Nat.add_comm]

/-- Unpacking is shift and mask. -/
theorem toNat_unpackLane (v : Lane) (z : Nat) : (unpackLane v z).toNat = ((v >>> z) &&& 1).toNat := by
  rw [unpackLane, BitVec.getLsbD, Nat.toNat_testBit, BitVec.toNat_and, BitVec.toNat_ushiftRight,
    Nat.shiftRight_eq_div_pow]
  exact (Nat.and_one_is_mod _).symm

theorem unpackLane_packLane (b : Nat → Bool) {z : Nat} (hz : z < 64) : unpackLane (packLane b) z = b z := by
  simp [unpackLane, packLane, hz]

theorem packLane_unpackLane (v : Lane) : packLane (unpackLane v) = v :=
  lane_ext fun _ hz => unpackLane_packLane (unpackLane v) hz

/-- Settles O25: packing is a weighted sum by induction on the length, unpacking reads one bit of it. -/
theorem packingIsLossless : Obligations.PackingIsLossless :=
  ⟨toNat_ofBits 64, fun v z _ => toNat_unpackLane v z, packLane_unpackLane, fun b _ => unpackLane_packLane b,
    by decide +kernel, by decide⟩

end Sys2Proof.Machine
end

section
/-! PROOFS. The flattened state: its indices, its packing, and XOR into its first bits (R117, R119, R120). -/

namespace Sys2Proof.Machine

/-- Settles O27: a flattened index is a lane number and a bit number in that lane. -/
theorem flattenedIndexOfEachBit : Obligations.FlattenedIndexOfEachBit := by
  intro A
  have bit (x y : Fin 5) (z : Nat) (hz : z < 64) := sbit_laneNumber A x y hz
  exact ⟨bit, fun i hi => by simp [hi], bit 0 0 0 (by decide), bit 1 0 0 (by decide), bit 0 1 0 (by decide),
    bit 1 3 63 (by decide), bit 2 3 0 (by decide), bit 4 4 63 (by decide)⟩

section flattened
variable {A B : StateArray} {n : Nat}

/-- A lane lies inside the 1600 flattened bits. -/
theorem flattened_lt (x y : Fin 5) {z : Nat} (hz : z < 64) : 64 * laneNumber x y + z < 1600 := by
  have := laneNumber_lt x y
  omega

/-- Two arrays have an equal lane where they have the same flattened bits. -/
theorem lane_eq_of_sbit {x y : Fin 5}
    (h : ∀ z, z < 64 → sbit A (64 * laneNumber x y + z) = sbit B (64 * laneNumber x y + z)) :
    A.lane x y = B.lane x y :=
  lane_ext fun z hz => by rw [← sbit_laneNumber A x y hz, ← sbit_laneNumber B x y hz, h z hz]

/-- Two arrays with the same 1600 flattened bits are equal. -/
theorem array_ext_sbit (h : ∀ i, i < 1600 → sbit A i = sbit B i) : A = B :=
  array_ext fun x y => lane_eq_of_sbit fun _ hz => h _ (flattened_lt x y hz)

/-- Each lane is packed from the 64 bits that start at 64 times its number (R117). -/
theorem lane_stateFromBits (s : BitVec 1600) (x y : Fin 5) :
    (stateFromBits s).lane x y = packLane fun z => s.getLsbD (64 * laneNumber x y + z) :=
  lane_ext fun z hz => by simp [stateFromBits, packLane, hz]

/-- Flattened bit `i` of a state made from a sequence is bit `i` of the sequence. -/
theorem sbit_stateFromBits (s : BitVec 1600) {i : Nat} (hi : i < 1600) : sbit (stateFromBits s) i = s.getLsbD i := by
  have hlane : i / 64 < 25 := by omega
  have hbit : i % 64 < 64 := Nat.mod_lt _ (by decide)
  rw [sbit, lane_stateFromBits, unpackLane_packLane _ hbit, laneNumber_laneX_laneY hlane, Nat.div_add_mod]

theorem stateFromBits_bitsFromState (A : StateArray) : stateFromBits (bitsFromState A) = A :=
  array_ext_sbit fun i hi => by rw [sbit_stateFromBits _ hi]; simp [hi]

theorem bitsFromState_stateFromBits (s : BitVec 1600) : bitsFromState (stateFromBits s) = s :=
  BitVec.eq_of_getLsbD_eq fun i hi => by simp [hi, sbit_stateFromBits s hi]

/-- The flattened bits below `n` are XORed, and a sequence has no bit at or past its length. -/
theorem sbit_xorPrefix (A : StateArray) (v : BitVec n) {i : Nat} (hi : i < 1600) :
    sbit (xorPrefix A v) i = xor1 (sbit A i) (v.getLsbD i) := by
  rw [xorPrefix, sbit_stateFromBits _ hi]
  simp [hi, xor1]

/-- Flattened bits at or past the length of the sequence keep their value. -/
theorem sbit_xorPrefix_of_le (A : StateArray) (v : BitVec n) {i : Nat} (hi : i < 1600) (hn : n ≤ i) :
    sbit (xorPrefix A v) i = sbit A i := by
  rw [sbit_xorPrefix A v hi, BitVec.getLsbD_of_ge v i hn]
  exact Bool.xor_false _

/-- A lane that starts at or past the length of the sequence keeps its value. -/
theorem lane_xorPrefix_of_le (A : StateArray) (v : BitVec n) {x y : Fin 5} (hn : n ≤ 64 * laneNumber x y) :
    (xorPrefix A v).lane x y = A.lane x y :=
  lane_eq_of_sbit fun _ hz => sbit_xorPrefix_of_le A v (flattened_lt x y hz) (hn.trans (Nat.le_add_right _ _))

end flattened

/-- Settles O26: both directions keep each flattened bit at its index. -/
theorem statePackingIsLossless : Obligations.StatePackingIsLossless :=
  ⟨lane_stateFromBits, fun A i hi => by simp [hi], stateFromBits_bitsFromState, bitsFromState_stateFromBits⟩

/-- Settles O28: the capacity lanes start at flattened bit 1088, the length of a block. -/
theorem xorPrefixLeavesTheRestAlone : Obligations.XorPrefixLeavesTheRestAlone := by
  refine ⟨fun n A v i _ _ hi => ?_, fun A v x y hcap => lane_xorPrefix_of_le A v (Nat.mul_le_mul_left 64 hcap),
    by decide +kernel⟩
  by_cases hn : i < n
  · rw [if_pos hn, sbit_xorPrefix A v hi]
  · rw [if_neg hn, sbit_xorPrefix_of_le A v hi (Nat.le_of_not_lt hn)]

end Sys2Proof.Machine
end

section
/-! PROOFS. What the permutation commands share: the checks, the registers they write, and a run of them (R150 to R156). -/

namespace Sys2Proof.Machine

/-- What a permutation command does to the registers once it has passed its checks; no other command does anything here.
`exec_permutation` ties it to the model. -/
def Engine.permutedBy {c : Config} (e : Engine c) : Instr → Engine c
  | .theta => { e with array := theta e.array }
  | .rho => { e with array := rho e.array }
  | .pi => { e with array := pi e.array }
  | .chi => { e with array := chi e.array }
  | .iota => { e with array := iota e.array e.rnd, rnd := e.rnd + 1 }
  | .round => { e with array := keccakRound e.array e.rnd, rnd := e.rnd + 1 }
  | .permute => { e with array := remainingRounds e.rnd e.array, rnd := 0 }
  | .nop | .init | .load | .absorb | .squeeze | .hash => e

section engine
variable {c : Config} (e : Engine c) (i : Instr)

@[simp] theorem Engine.permutedBy_blk : (e.permutedBy i).blk = e.blk := by cases i <;> rfl
@[simp] theorem Engine.permutedBy_phase : (e.permutedBy i).phase = e.phase := by cases i <;> rfl
@[simp] theorem Engine.permutedBy_err : (e.permutedBy i).err = e.err := by cases i <;> rfl
@[simp] theorem Engine.permutedBy_errCode : (e.permutedBy i).errCode = e.errCode := by cases i <;> rfl
@[simp] theorem Engine.permutedBy_msg : (e.permutedBy i).msg = e.msg := by cases i <;> rfl
@[simp] theorem Engine.permutedBy_dig : (e.permutedBy i).dig = e.dig := by cases i <;> rfl

/-- THETA, RHO, PI and CHI keep the round index (R150 to R153). -/
theorem Engine.permutedBy_rnd {i : Instr} (h : i ∈ [Instr.theta, .rho, .pi, .chi]) : (e.permutedBy i).rnd = e.rnd := by
  simp only [List.mem_cons, List.not_mem_nil, or_false] at h
  obtain rfl | rfl | rfl | rfl := h <;> rfl

end engine

section commands
variable {i : Instr} (hi : i.group = .permutation)
include hi

/-- Each permutation command is legal in IDLE only (R253). -/
theorem exec_permutation (s : State) : exec i s = s.attempt [.idle] fun e => e.permutedBy i := by
  cases i with
  | theta | rho | pi | chi | iota | round | permute => rfl
  | nop | init | load | absorb | squeeze | hash => contradiction

theorem exec_permutation_outside_idle {s : State} (he : s.eng.err = false) (hp : s.eng.phase ≠ .idle) :
    exec i s = s.badPhase := by
  rw [exec_permutation hi, State.attempt, Engine.attempt_illegal _ _ _ he (by simpa using hp)]
  rfl

theorem exec_permutation_in_idle {s : State} (he : s.eng.err = false) (hp : s.eng.phase = .idle) :
    exec i s = .next (s.withEngine (s.eng.permutedBy i)) := by
  rw [exec_permutation hi, State.attempt, Engine.attempt_legal _ _ _ he (by simp [hp])]

/-- The state right after reset passes the checks. -/
theorem exec_permutation_resetOf (c : Config) :
    exec i (State.resetOf c) = .next ((State.resetOf c).withEngine ((Engine.reset c).permutedBy i)) :=
  exec_permutation_in_idle hi rfl rfl

end commands

/-- Permutation commands presented one after the other in IDLE are performed one after the other. -/
theorem runSteps_permutations {c : Config} (m : BitVec c.msgBits) (l : List (HostMove c)) (is : List Instr)
    (his : ∀ i ∈ is, i.group = .permutation) (e : Engine c) (he : e.err = false) (hp : e.phase = .idle) :
    runSteps is.length ⟨c, e, m, issueAll (is.map encode) ++ l⟩ = .next ⟨c, is.foldl Engine.permutedBy e, m, l⟩ := by
  induction is generalizing e with
  | nil => rfl
  | cons i is ih =>
    obtain ⟨hi, his⟩ := List.forall_mem_cons.mp his
    have hstep : step ⟨c, e, m, issueAll ((i :: is).map encode) ++ l⟩ =
        .next ⟨c, e.permutedBy i, m, issueAll (is.map encode) ++ l⟩ :=
      (step_mk_encode c e m _ i).trans (exec_permutation_in_idle hi he hp)
    exact (runSteps_next hstep).trans (ih his _ (by simpa using he) (by simpa using hp))

/-- Settles O48: a command is ignored, refused, or performed, and only the last writes more than ERR and ERRCODE. -/
theorem frameOfPermutationCommands : Obligations.FrameOfPermutationCommands := by
  intro s i hi
  have hgroup : i.group = .permutation := by revert i; decide
  refine ⟨_, exec_permutation hgroup s, ?_⟩
  obtain ⟨-, heq⟩ | ⟨-, hp, heq⟩ | ⟨-, hp, heq⟩ := s.eng.attempt_cases (fun e => e.permutedBy i) [.idle]
  · simp [heq]
  · have hp : s.eng.phase ≠ .idle := by simpa using hp
    simp [heq, hp]
  · have hp : s.eng.phase = .idle := by simpa using hp
    simpa [heq, hp] using s.eng.permutedBy_rnd

end Sys2Proof.Machine
end

section
/-! PROOFS. θ (R142): its bits, its fixed points and its linearity, and the command THETA (R150). -/

namespace Sys2Proof.Machine

theorem getLsbD_columnParity (A : StateArray) (x : Fin 5) (z : Nat) : (columnParity A x).getLsbD z = parityBit A x z := by
  simp [columnParity, parityBit, xor1]

theorem getLsbD_thetaEffect (A : StateArray) (x : Fin 5) {z : Nat} (hz : z < 64) :
    (thetaEffect A x).getLsbD z = xor1 (parityBit A (x - 1) z) (parityBit A (x + 1) ((z + 63) % 64)) := by
  rw [thetaEffect, BitVec.getLsbD_xor, getLsbD_rotl64 _ _ hz, getLsbD_columnParity, getLsbD_columnParity]
  rfl

theorem getLsbD_theta (A : StateArray) (x y : Fin 5) {z : Nat} (hz : z < 64) :
    ((theta A).lane x y).getLsbD z = xor1 ((A.lane x y).getLsbD z)
      (xor1 (parityBit A (x - 1) z) (parityBit A (x + 1) ((z + 63) % 64))) := by
  rw [lane_theta, BitVec.getLsbD_xor, getLsbD_thetaEffect A x hz]
  rfl

theorem theta_zero : theta StateArray.zero = StateArray.zero := by decide +kernel

/-- Settles O15: θ is read bit by bit, and from reset it leaves every register as it is. -/
theorem thetaMixesColumnParities : Obligations.ThetaMixesColumnParities := by
  refine ⟨rfl, fun s => exec_permutation_outside_idle rfl, fun s he hp => ?effect, theta_zero, by decide +kernel,
    fun c => ?reset⟩
  case effect =>
    exact ⟨_, exec_permutation_in_idle rfl he hp, rfl, fun x y z => getLsbD_theta s.eng.array x y⟩
  case reset => exact ⟨_, exec_permutation_resetOf rfl c, theta_zero, Engine.reset_statusWord c⟩

/-- The lanewise XOR of two arrays. -/
def xorArrays (A B : StateArray) : StateArray :=
  StateArray.ofLanes fun x y => A.lane x y ^^^ B.lane x y

@[simp] theorem lane_xorArrays (A B : StateArray) (x y : Fin 5) :
    (xorArrays A B).lane x y = A.lane x y ^^^ B.lane x y := by
  simp [xorArrays]

theorem rotl64_xor (v w : Lane) (n : Fin 64) : rotl64 (v ^^^ w) n = rotl64 v n ^^^ rotl64 w n :=
  lane_ext fun z hz => by simp only [BitVec.getLsbD_xor, getLsbD_rotl64 _ n hz]

theorem columnParity_xor (A B : StateArray) (x : Fin 5) :
    columnParity (xorArrays A B) x = columnParity A x ^^^ columnParity B x := by
  simp only [columnParity, lane_xorArrays]
  ac_rfl

theorem thetaEffect_xor (A B : StateArray) (x : Fin 5) :
    thetaEffect (xorArrays A B) x = thetaEffect A x ^^^ thetaEffect B x := by
  simp only [thetaEffect, columnParity_xor, rotl64_xor]
  ac_rfl

/-- Settles O23: column parities and rotations are linear, so θ is. -/
theorem thetaIsLinear : Obligations.ThetaIsLinear := by
  intro A B
  refine array_ext (B := xorArrays (theta A) (theta B)) fun x y => ?_
  calc (theta (xorArrays A B)).lane x y
      = (A.lane x y ^^^ B.lane x y) ^^^ (thetaEffect A x ^^^ thetaEffect B x) := by
        rw [lane_theta, lane_xorArrays, thetaEffect_xor]
    _ = (theta A).lane x y ^^^ (theta B).lane x y := by
        rw [lane_theta, lane_theta]; ac_rfl
    _ = (xorArrays (theta A) (theta B)).lane x y := (lane_xorArrays _ _ x y).symm

end Sys2Proof.Machine
end

section
/-! PROOFS. ρ, π, χ and ι (R143 to R146) and their commands (R151 to R154). -/

namespace Sys2Proof.Machine

theorem rotl64_one (n : Fin 64) : rotl64 1 n = BitVec.ofNat 64 (2 ^ n.val) := by
  have hright : 1 >>> (64 - n.val) = 0 := Nat.shiftRight_eq_zero 1 _ (Nat.one_lt_two_pow (by omega))
  refine BitVec.eq_of_toNat_eq ?_
  rw [toNat_rotl64, BitVec.toNat_ofNat]
  simp [hright, Nat.shiftLeft_eq]

/-- Settles O16: ρ rotates each lane, and lane (0, 0) by 0. -/
theorem rhoRotatesEachLane : Obligations.RhoRotatesEachLane := by
  refine ⟨rfl, fun s => exec_permutation_outside_idle rfl, fun s he hp => ?effect, fun x y => ?ones⟩
  case effect =>
    refine ⟨_, exec_permutation_in_idle rfl he hp, rfl, (lane_rho _ 0 0).trans (rotl64_zero_distance _),
      fun x y z hz => ?_⟩
    exact (congrArg (·.getLsbD z) (lane_rho s.eng.array x y)).trans (getLsbD_rotl64 _ _ hz)
  case ones => rw [lane_rho, lane_ofLanes, rotl64_one]

/-- The position whose lane π moves to position `p` (R144). -/
def piSource (p : Fin 5 × Fin 5) : Fin 5 × Fin 5 := (p.1 + 3 * p.2, p.1)

/-- π applied `n` times takes each lane from where `n` steps of `piSource` lead. -/
theorem lane_iterate_pi (n : Nat) (A : StateArray) (p : Fin 5 × Fin 5) :
    (pi^[n] A).lane p.1 p.2 = A.lane (piSource^[n] p).1 (piSource^[n] p).2 := by
  induction n generalizing A with
  | zero => rfl
  | succ n ih =>
    rw [Function.iterate_succ_apply, ih, lane_pi, Function.iterate_succ_apply']
    rfl

theorem piSource_order : ∀ p, piSource^[24] p = p := by decide

theorem pi_order (A : StateArray) : pi^[24] A = A :=
  array_ext fun x y => by rw [lane_iterate_pi 24 A (x, y), piSource_order]

/-- Old lane (x, y) moves to (y, 2x + 3y) (R144). -/
theorem lane_pi_target (A : StateArray) (x y : Fin 5) : (pi A).lane y (2 * x + 3 * y) = A.lane x y := by
  have hsource : ∀ x y : Fin 5, y + 3 * (2 * x + 3 * y) = x := by decide
  rw [lane_pi, hsource]

/-- Settles O17: π only relabels lanes, and the relabelling has order 24. -/
theorem piRelabelsTheLanes : Obligations.PiRelabelsTheLanes := by
  refine ⟨rfl, fun s => exec_permutation_outside_idle rfl, fun s he hp => ?effect, pi_order, by decide⟩
  case effect =>
    exact ⟨_, exec_permutation_in_idle rfl he hp, rfl, lane_pi _ 0 0,
      fun x y => ⟨lane_pi _ x y, lane_pi_target _ x y⟩⟩

theorem getLsbD_chi (A : StateArray) (x y : Fin 5) {z : Nat} (hz : z < 64) :
    ((chi A).lane x y).getLsbD z = xor1 ((A.lane x y).getLsbD z)
      (and1 (not1 ((A.lane (x + 1) y).getLsbD z)) ((A.lane (x + 2) y).getLsbD z)) := by
  simp [hz, xor1, and1, not1]

/-- Settles O18: χ is read bit by bit. -/
theorem chiMixesRows : Obligations.ChiMixesRows := by
  refine ⟨rfl, fun s => exec_permutation_outside_idle rfl, fun s he hp => ?effect, by decide +kernel⟩
  case effect => exact ⟨_, exec_permutation_in_idle rfl he hp, rfl, fun x y z => getLsbD_chi s.eng.array x y⟩

theorem lane_iota_origin (A : StateArray) (i : Fin 24) : (iota A i).lane 0 0 = A.lane 0 0 ^^^ roundConstant i := by
  simp

theorem lane_iota_elsewhere (A : StateArray) (i : Fin 24) {x y : Fin 5} (h : (x, y) ≠ (0, 0)) :
    (iota A i).lane x y = A.lane x y := by
  rw [lane_iota, if_neg (by simpa using h)]

theorem Engine.reset_iota_statusWord (c : Config) : ((Engine.reset c).permutedBy .iota).statusWord = 0x100 := by
  simp [Engine.statusWord, Engine.permutedBy, Phase.bits, ErrCode.bits]

/-- Settles O19: ι writes lane (0, 0) only, and RND counts modulo 24. -/
theorem iotaInjectsTheRoundConstant : Obligations.IotaInjectsTheRoundConstant := by
  refine ⟨rfl, fun s => exec_permutation_outside_idle rfl, fun s he hp => ?effect, fun c => ?reset⟩
  case effect =>
    refine ⟨_, exec_permutation_in_idle rfl he hp, rfl, lane_iota_origin _ _, fun x y => lane_iota_elsewhere _ _, rfl,
      fun hlast => ?_⟩
    exact congrArg (· + 1) hlast
  case reset =>
    have horigin : (iota StateArray.zero 0).lane 0 0 = 1 := by decide
    exact ⟨_, exec_permutation_resetOf rfl c, horigin, rfl, Engine.reset_iota_statusWord c⟩

end Sys2Proof.Machine
end

section
/-! PROOFS. Rounds in sequence (R147, R148) and the commands ROUND and PERMUTE (R155, R156). -/

namespace Sys2Proof.Machine

/-- The round index after 23 is 0 (R33). -/
theorem rnd_wraps (r : Fin 24) : (if r = 23 then 0 else r + 1) = r + 1 := by
  split
  case isTrue h => rw [h]; rfl
  case isFalse => rfl

theorem ofNat_rnd_succ (k : Nat) : Fin.ofNat 24 k + 1 = Fin.ofNat 24 (k + 1) :=
  Fin.ext (by simp [Fin.val_add])

/-- Rounds in sequence are a fold over their indices, counted up from the first one modulo 24. -/
theorem keccakRounds_ofNat (n k : Nat) (A : StateArray) :
    keccakRounds n (Fin.ofNat 24 k) A = ((List.range' k n).map (Fin.ofNat 24)).foldl keccakRound A := by
  induction n generalizing k A with
  | zero => rfl
  | succ n ih => rw [keccakRounds, ofNat_rnd_succ, ih]; rfl

/-- Rounds `i` to 23 as a fold over the 24 indices with the first `i` dropped (R156). -/
theorem remainingRounds_eq_foldl (i : Fin 24) (A : StateArray) :
    remainingRounds i A = ((List.finRange 24).drop i.val).foldl keccakRound A := by
  have hindices : ∀ i : Fin 24, (List.finRange 24).drop i.val = (List.range' i.val (24 - i.val)).map (Fin.ofNat 24) := by
    decide
  have hi : Fin.ofNat 24 i.val = i := Fin.ofNat_val_eq_self i
  rw [remainingRounds, hindices, ← keccakRounds_ofNat, hi]

/-- Settles O22: with no index dropped the fold is over 0 to 23. -/
theorem permutationIsRoundsZeroToTwentyThree : Obligations.PermutationIsRoundsZeroToTwentyThree :=
  ⟨remainingRounds_eq_foldl 0, by decide +kernel⟩

/-- Rounds from index 0 can be split anywhere (R148). -/
theorem keccakRounds_add (m n : Nat) (A : StateArray) :
    keccakRounds (m + n) 0 A = keccakRounds n (Fin.ofNat 24 m) (keccakRounds m 0 A) := by
  have hindices : List.range' 0 (m + n) = List.range' 0 m ++ List.range' m n := by
    simp [← List.range'_append_1 (s := 0)]
  have hstart (n : Nat) : keccakRounds n 0 = keccakRounds n (Fin.ofNat 24 0) := rfl
  simp only [hstart, keccakRounds_ofNat, hindices, List.map_append, List.foldl_append]

/-- The first `k` rounds and then the remaining ones are the permutation (R156). -/
theorem remainingRounds_keccakRounds (A : StateArray) {k : Nat} (hk : k < 24) :
    remainingRounds (Fin.ofNat 24 k) (keccakRounds k 0 A) = keccakF A := by
  rw [remainingRounds, Fin.val_ofNat, Nat.mod_eq_of_lt hk, ← keccakRounds_add, Nat.add_sub_cancel' hk.le, keccakF]

/-- `k` ROUND commands from RND = 0 are the first `k` rounds (R155). -/
theorem foldl_permutedBy_round {c : Config} {e : Engine c} (hr : e.rnd = 0) (k : Nat) :
    (List.replicate k Instr.round).foldl Engine.permutedBy e =
      { e with array := keccakRounds k 0 e.array, rnd := Fin.ofNat 24 k } := by
  induction k with
  | zero => rw [show Fin.ofNat 24 0 = e.rnd from hr.symm]; rfl
  | succ k ih =>
    rw [List.replicate_succ', List.foldl_append, ih, keccakRounds_add, ← ofNat_rnd_succ]
    rfl

/-- The 2-round state of the spec's test vectors (R155). -/
theorem twoRounds_zero : keccakRound (keccakRound StateArray.zero 0) 1 =
    ⟨⟨0x0000000000008083, 0, 0x0000000000000002, 0x0000000010000400, 0x0000010000000000⟩,
     ⟨0x0000100000000000, 0x0000200000200000, 0x0000000000000200, 0, 0⟩,
     ⟨0x0000000000008000, 0, 0, 0x0000000000000400, 0x0000010000000004⟩,
     ⟨0x0000000000000001, 0x0000200000000000, 0x0000000000000202, 0x0000000010000000, 0⟩,
     ⟨0x0000100000008000, 0x0000000000200000, 0, 0, 0x0000000000000004⟩⟩ := by
  decide +kernel

/-- Settles O20: the commands are performed one after the other, and the round index counts them. -/
theorem roundIsTheFiveStepsInOrder : Obligations.RoundIsTheFiveStepsInOrder := by
  refine ⟨rfl, fun s => exec_permutation_outside_idle rfl, fun s he hp => ?effect, ?five, ?all, fun c => ?reset⟩
  case effect => rw [exec_permutation_in_idle rfl he hp, rnd_wraps]; rfl
  case five =>
    rintro ⟨c, e, m, _⟩ rest he hp
    have hfive := runSteps_permutations m rest [.theta, .rho, .pi, .chi, .iota] (by decide) e he hp
    have hround : exec .round ⟨c, e, m, rest⟩ = _ := exec_permutation_in_idle rfl he hp
    exact hfive.trans hround.symm
  case all =>
    rintro ⟨c, e, m, _⟩ rest he hp hr
    have hrounds := runSteps_permutations m rest (.replicate 24 .round) (by decide) e he hp
    rw [foldl_permutedBy_round hr, show Fin.ofNat 24 24 = e.rnd from hr.symm] at hrounds
    exact hrounds
  case reset =>
    have horigin : (keccakRound StateArray.zero 0).lane 0 0 = 1 := by decide +kernel
    exact ⟨_, _, exec_permutation_resetOf rfl c, horigin, rfl, exec_permutation_in_idle rfl rfl rfl, rfl, twoRounds_zero⟩

/-- PERMUTE with RND = 0 is the permutation, and RND keeps its 0 (R156). -/
theorem Engine.permutedBy_permute_of_rnd_zero {c : Config} {e : Engine c} (hr : e.rnd = 0) :
    e.permutedBy .permute = { e with array := keccakF e.array } := by
  cases e; cases hr; rfl

/-- PERMUTE with RND = 23 is the one round that is left (R156). -/
theorem Engine.permutedBy_permute_of_rnd_last {c : Config} {e : Engine c} (hr : e.rnd = 23) :
    e.permutedBy .permute = { e with array := keccakRound e.array 23, rnd := 0 } := by
  cases e; cases hr; rfl

/-- `k` ROUNDs from RND = 0 and then PERMUTE are the permutation (R156). -/
theorem foldl_permutedBy_round_permute {c : Config} {e : Engine c} (hr : e.rnd = 0) {k : Nat} (hk : k < 24) :
    (List.replicate k Instr.round ++ [Instr.permute]).foldl Engine.permutedBy e =
      { e with array := keccakF e.array } := by
  rw [List.foldl_append, foldl_permutedBy_round hr, ← remainingRounds_keccakRounds e.array hk]
  cases e; cases hr; rfl

/-- Settles O21: the rounds from RND on complete the permutation that the rounds before RND began. -/
theorem permutePerformsTheRemainingRounds : Obligations.PermutePerformsTheRemainingRounds := by
  refine ⟨rfl, fun s => exec_permutation_outside_idle rfl, fun s he hp => ?effect, ?completes⟩
  case effect =>
    have hexec : exec .permute s = _ := exec_permutation_in_idle rfl he hp
    refine ⟨?_, fun hr => ?_, fun hr => ?_⟩
    · rw [hexec, ← remainingRounds_eq_foldl]; rfl
    · rw [hexec, Engine.permutedBy_permute_of_rnd_zero hr]
    · rw [hexec, Engine.permutedBy_permute_of_rnd_last hr]
  case completes =>
    rintro ⟨c, e, m, _⟩ k rest hk he hp hr
    have hrun := runSteps_permutations m rest (.replicate k .round ++ [.permute])
      (by simp [or_imp, forall_and, Instr.group]) e he hp
    rw [foldl_permutedBy_round_permute hr hk] at hrun
    simpa [encode] using hrun

end Sys2Proof.Machine
end

section
/-! PROOFS. The number of pad bits and the block count by L mod 1088 (R193, R194, R212). -/

namespace Sys2Proof.Machine

variable {msgBits : Nat}

/-- The number of pad bits goes down from 1089 with the residue of `L + 1`, so that it is 1089 where 1088 divides `L + 1`
(R194). -/
theorem paddedLen_sub_self (msgBits : Nat) : paddedLen msgBits - msgBits = 1089 - (msgBits + 1) % 1088 := by
  simp only [paddedLen, nblk]; omega

/-- Only a residue of 1087 takes a block more than the one the message ends in (R193). -/
theorem nblk_eq_div_add (msgBits : Nat) :
    nblk msgBits = msgBits / 1088 + if msgBits % 1088 = 1087 then 2 else 1 := by
  simp only [nblk]; split <;> omega

/-- The lengths that take exactly `n + 1` blocks (R212). -/
theorem nblk_eq_succ_iff {n : Nat} : nblk msgBits = n + 1 ↔ n * 1088 < msgBits + 2 ∧ msgBits + 2 ≤ (n + 1) * 1088 := by
  rw [Nat.eq_iff_le_and_ge, Nat.succ_le_iff, ← Nat.not_le, nblk_le_iff, nblk_le_iff, Nat.not_le, and_comm]

/-- Settles O31: the residue of `L + 1` is 0 for L mod 1088 = 1087 and 1087 for L mod 1088 = 1086. -/
theorem padLengthRange : Obligations.PadLengthRange := by
  intro L
  rw [paddedLen_sub_self]
  omega

/-- Settles O32: the residue decides the pad length and the block count. -/
theorem padBoundaryCases : Obligations.PadBoundaryCases := by
  intro L
  refine ⟨fun h => ?zero, fun h1 h2 => ?between, fun h => ?last, ?one, ?two, ?three⟩
  case zero | between => rw [paddedLen_sub_self, nblk_eq_div_add, if_neg (by omega)]; omega
  case last => rw [paddedLen_sub_self, nblk_eq_div_add, if_pos h]; omega
  case one | two | three => rw [nblk_eq_succ_iff]; omega

end Sys2Proof.Machine
end

section
/-! PROOFS. The bits, blocks and bytes of the padded message (R192, R195, R198). -/

namespace Sys2Proof.Machine

variable {msgBits : Nat}

/-- Past the message the padded message has its two ones and nothing else (R192). -/
theorem padBit_of_le (m : BitVec msgBits) {j : Nat} (h : msgBits ≤ j) :
    padBit m j = (decide (j = msgBits) || decide (j = paddedLen msgBits - 1)) := by
  by_cases hhead : j = msgBits
  · simp [hhead]
  · by_cases htail : j = paddedLen msgBits - 1
    · simp [htail, padBit_tail]
    · simp [padBit, padClass, Nat.not_lt.mpr h, hhead, htail]

/-- Settles O33: each position has its class, and the two pad ones are two positions as the pad has at least two bits. -/
theorem paddedMessageBits : Obligations.PaddedMessageBits := by
  intro L m
  have htwo := add_two_le_paddedLen L
  refine ⟨fun j hj => ?msg, ?head, fun j hj1 hj2 => ?fill, ?tail, by omega⟩
  case msg => simp [hj, show j < paddedLen L by omega]
  case head => simp [show L < paddedLen L by omega]
  case fill => simp [padBit_fill m (j := j) (by omega) (by omega)]
  case tail => simp [padBit_tail, show 0 < paddedLen L by omega]

/-- The positions of a block are padded positions (R195). -/
theorem block_position_lt {b k : Nat} (hb : b < nblk msgBits) (hk : k < 1088) : b * 1088 + k < paddedLen msgBits := by
  simp only [paddedLen]; omega

/-- The final pad bit is the last bit of the last block (R195). -/
theorem last_block_position (msgBits : Nat) : (nblk msgBits - 1) * 1088 + 1087 = paddedLen msgBits - 1 := by
  have hpos : 0 < nblk msgBits := by rw [nblk_eq_div_add]; split <;> omega
  simp only [paddedLen]; omega

/-- Settles O34: the blocks cut the padded positions every 1088 bits. -/
theorem blocksCutThePaddedMessage : Obligations.BlocksCutThePaddedMessage := by
  intro L m
  refine ⟨fun b k hb hk => ?bits, ?last, ?first, ?position⟩
  case bits => simp [hk, block_position_lt hb hk]
  case last => simp [last_block_position, padBit_tail]
  case first => simp [Nat.div_add_mod', Nat.mod_lt]
  case position => rw [nblk_eq_div_add]; split <;> rfl

/-- PADDED_LEN is a whole number of bytes, 136 for each block (R191). -/
theorem paddedLen_div_eight (msgBits : Nat) : 8 * (paddedLen msgBits / 8) = paddedLen msgBits := by
  simp only [paddedLen]; omega

/-- The bits of a word that is there under a condition only. -/
theorem getLsbD_ite_zero {w : Nat} (p : Prop) [Decidable p] (v : BitVec w) (k : Nat) :
    (if p then v else 0).getLsbD k = (decide p && v.getLsbD k) := by
  by_cases hp : p <;> simp [hp]

/-- Padded byte `q`, from the byte after the message on: the first pad bit is bit 0 of byte `n`, and the final one is
bit 7 of the last byte (R198). -/
theorem extractLsb'_pad_byte {n : Nat} (m : BitVec (8 * n)) {q : Nat} (hq : n ≤ q) (hlast : q < paddedLen (8 * n) / 8) :
    (pad m).extractLsb' (8 * q) 8 =
      (if q = n then 0x01 else 0) ||| (if q + 1 = paddedLen (8 * n) / 8 then 0x80 else 0) := by
  have hbytes := paddedLen_div_eight (8 * n)
  have hbit0 : ∀ k, k < 8 → (0x01 : BitVec 8).getLsbD k = decide (k = 0) := by decide
  have hbit7 : ∀ k, k < 8 → (0x80 : BitVec 8).getLsbD k = decide (k = 7) := by decide
  refine BitVec.eq_of_getLsbD_eq fun k hk => ?_
  have hhead : 8 * q + k = 8 * n ↔ q = n ∧ k = 0 := by omega
  have htail : 8 * q + k = paddedLen (8 * n) - 1 ↔ q + 1 = paddedLen (8 * n) / 8 ∧ k = 7 := by omega
  calc ((pad m).extractLsb' (8 * q) 8).getLsbD k
    _ = padBit m (8 * q + k) := by simp [hk, show 8 * q + k < paddedLen (8 * n) by omega]
    _ = (decide (q = n ∧ k = 0) || decide (q + 1 = paddedLen (8 * n) / 8 ∧ k = 7)) := by
      simp only [padBit_of_le m (show 8 * n ≤ 8 * q + k by omega), hhead, htail]
    _ = _ := by
      rw [BitVec.getLsbD_or, getLsbD_ite_zero, getLsbD_ite_zero, hbit0 k hk, hbit7 k hk, Bool.decide_and,
        Bool.decide_and]

/-- Settles O36: the byte after the message and the last byte are one byte or two, with one or both of the pad ones. -/
theorem byteAlignedPadding : Obligations.ByteAlignedPadding := by
  intro n m
  have htwo := add_two_le_paddedLen (8 * n)
  have hbytes := paddedLen_div_eight (8 * n)
  obtain ⟨q, hq⟩ := Nat.exists_eq_add_one_of_ne_zero (n := paddedLen (8 * n) / 8) (by omega)
  have hfirst := extractLsb'_pad_byte m (q := n) le_rfl (by omega)
  have hlast := extractLsb'_pad_byte m (q := q) (by omega) (by omega)
  have hindex : paddedLen (8 * n) - 8 = 8 * q := by omega
  simp only [hindex, hfirst, hlast, hq, Nat.add_right_cancel_iff, if_true]
  refine ⟨fun hsame => ?one_byte, fun hdiff => ?two_bytes⟩
  case one_byte => simp [hsame]
  case two_bytes => simp [show n ≠ q by omega, show q ≠ n by omega]

end Sys2Proof.Machine
end

section
/-! PROOFS. The padding state machine (R197): where it stands after each number of steps, and what it emits there. -/

namespace Sys2Proof.Machine

/-- The state of the padding machine in which it emits a position of the class (R196, R197). -/
def PadClass.state : PadClass → PadState
  | .msg => .msg
  | .head => .head
  | .fill => .fill
  | .tail => .tail

/-- The padding machine after `j` steps from its start: in the state of the class of position `j`, and in END from
PADDED_LEN on (R197). -/
def padMachineAt (msgBits j : Nat) : PadMachine :=
  if j < paddedLen msgBits then ⟨(padClass msgBits j).state, j⟩ else ⟨.stop, paddedLen msgBits⟩

variable {msgBits j : Nat}

theorem padClass_msg (h : j < msgBits) : padClass msgBits j = .msg := if_pos h

theorem padClass_head (msgBits : Nat) : padClass msgBits msgBits = .head := by simp [padClass]

theorem padClass_fill (h : msgBits < j) (h' : j < paddedLen msgBits - 1) : padClass msgBits j = .fill := by
  simp [padClass, h.le, h.ne', h'.ne]

theorem padClass_tail (h : j + 1 = paddedLen msgBits) : padClass msgBits j = .tail := by
  have htwo := add_two_le_paddedLen msgBits
  simp [padClass, ← h, show msgBits ≤ j by omega, show j ≠ msgBits by omega]

/-- The successor of a message position is a message position or the first pad bit, as R197 has it. -/
theorem padAfterMsg_eq (h : j < msgBits) :
    (if j + 1 < msgBits then .msg else .head : PadState) = (padClass msgBits (j + 1)).state := by
  split
  case isTrue hmsg => rw [padClass_msg hmsg]; rfl
  case isFalse hhead =>
    obtain rfl : j + 1 = msgBits := by omega
    rw [padClass_head]; rfl

/-- The successor of a pad position before the last is a fill position or the last one, as R197 has it. -/
theorem padAfterFill_eq (h : msgBits ≤ j) (h' : j + 1 < paddedLen msgBits) :
    padAfterFill msgBits j = (padClass msgBits (j + 1)).state := by
  rw [padAfterFill]
  split
  case isTrue hfill => rw [padClass_fill (by omega) hfill]; rfl
  case isFalse htail => rw [padClass_tail (by omega)]; rfl

theorem padMachineAt_of_lt (h : j < paddedLen msgBits) : padMachineAt msgBits j = ⟨(padClass msgBits j).state, j⟩ :=
  if_pos h

theorem padMachineAt_of_le (h : paddedLen msgBits ≤ j) : padMachineAt msgBits j = ⟨.stop, paddedLen msgBits⟩ :=
  if_neg (Nat.not_lt.mpr h)

/-- A message of at least one bit begins in MSG (R197). -/
theorem padMachineAt_zero (h : 1 ≤ msgBits) : padMachineAt msgBits 0 = padStart := by
  have htwo := add_two_le_paddedLen msgBits
  rw [padMachineAt_of_lt (by omega), padClass_msg h]; rfl

/-- One step of the machine goes to the next position (R197, columns Next state and Condition). -/
theorem padNext_padMachineAt (msgBits j : Nat) :
    padNext msgBits (padMachineAt msgBits j) = padMachineAt msgBits (j + 1) := by
  have htwo := add_two_le_paddedLen msgBits
  rcases Nat.lt_or_ge j (paddedLen msgBits) with hj | hj
  · rw [padMachineAt_of_lt hj]
    by_cases hlast : j + 1 = paddedLen msgBits
    · have htail : padClass msgBits j = .tail := padClass_tail (by omega)
      rw [padMachineAt_of_le hlast.ge, htail, ← hlast]; rfl
    · have hnext : j + 1 < paddedLen msgBits := by omega
      rw [padMachineAt_of_lt hnext]
      rcases Nat.lt_trichotomy j msgBits with hmsg | rfl | hfill
      · rw [padClass_msg hmsg, ← padAfterMsg_eq hmsg]; rfl
      · rw [padClass_head, ← padAfterFill_eq le_rfl hnext]; rfl
      · rw [padClass_fill hfill (by omega), ← padAfterFill_eq hfill.le hnext]; rfl
  · rw [padMachineAt_of_le hj, padMachineAt_of_le (by omega)]; rfl

/-- The machine emits the padded bit of each padded position (R196, R197). -/
theorem padEmits_padMachineAt (m : BitVec msgBits) (h : j < paddedLen msgBits) :
    padEmits m (padMachineAt msgBits j) = some (padBit m j) := by
  rw [padMachineAt_of_lt h, padBit]
  cases hc : padClass msgBits j <;> rfl

/-- In END the machine emits nothing (R197). -/
theorem padOutput_stop (m : BitVec msgBits) (k p : Nat) : padOutput m k ⟨.stop, p⟩ = [] := by
  induction k with
  | zero => rfl
  | succ k ih => exact ih

/-- From position `j`, with `n` positions left, the machine emits these and then nothing (R197). -/
theorem padOutput_padMachineAt (m : BitVec msgBits) (n k : Nat) (h : j + n = paddedLen msgBits) :
    padOutput m (n + k) (padMachineAt msgBits j) = (List.range' j n).map (padBit m) := by
  induction n generalizing j with
  | zero => exact (congrArg _ (padMachineAt_of_le h.ge)).trans (padOutput_stop m _ _)
  | succ n ih =>
    rw [Nat.add_right_comm, padOutput, padEmits_padMachineAt m (by omega), padNext_padMachineAt, ih (by omega)]
    rfl

/-- Iterating the machine's step counts the positions up (R197). -/
theorem iterate_padNext (h : 1 ≤ msgBits) (n : Nat) :
    Nat.iterate (padNext msgBits) n padStart = padMachineAt msgBits n := by
  induction n with
  | zero => exact (padMachineAt_zero h).symm
  | succ n ih => rw [Function.iterate_succ_apply', ih, padNext_padMachineAt]

/-- The machine is in FILL strictly between the two pad ones (R196, R197). -/
theorem padMachineAt_state_eq_fill_iff :
    (padMachineAt msgBits j).state = .fill ↔ msgBits < j ∧ j + 1 < paddedLen msgBits := by
  rcases Nat.lt_or_ge j (paddedLen msgBits) with hj | hj
  · rw [padMachineAt_of_lt hj]
    rcases Nat.lt_trichotomy j msgBits with hmsg | rfl | hpad
    · simp [padClass_msg hmsg, PadClass.state, hmsg.le]
    · simp [padClass_head, PadClass.state]
    · rcases Nat.lt_or_ge j (paddedLen msgBits - 1) with hfill | htail
      · simp [padClass_fill hpad hfill, PadClass.state, hpad, show j + 1 < paddedLen msgBits by omega]
      · have hlast : j + 1 = paddedLen msgBits := by omega
        simp [padClass_tail hlast, PadClass.state, hlast.ge]
  · rw [padMachineAt_of_le hj]
    simp [show ¬ j + 1 < paddedLen msgBits by omega]

/-- Settles O35: the machine passes the padded positions in order, and FILL is skipped where the pad is the two ones. -/
theorem padMachineEmitsThePaddedMessage : Obligations.PadMachineEmitsThePaddedMessage := by
  intro L m hL
  refine ⟨fun k => ?output, ?fill⟩
  case output =>
    rw [← padMachineAt_zero hL, padOutput_padMachineAt m _ k (Nat.zero_add _), List.range_eq_range']
    refine List.map_congr_left fun j hj => ?_
    simp [show j < paddedLen L by simpa using hj]
  case fill =>
    obtain ⟨-, -, -, htwo⟩ := padLengthRange L
    have hge := add_two_le_paddedLen L
    simp only [iterate_padNext hL, ne_eq, padMachineAt_state_eq_fill_iff, ← htwo]
    exact ⟨fun h => by have := h (L + 1); omega, fun h n => by omega⟩

end Sys2Proof.Machine
end

section
/-!
PROOFS. What the sponge commands share: the phases that allow each, the registers they write, and their frame
(R217 to R220).
-/

namespace Sys2Proof.Machine

/-- The phases that allow a command, as the list its checks take; `mem_legalPhases` ties it to the table of R253. -/
def legalPhases (i : Instr) : List Phase :=
  [.idle, .absorb, .squeeze, .done].filter (legalIn i)

theorem mem_legalPhases {i : Instr} {p : Phase} : p ∈ legalPhases i ↔ legalIn i p = true := by
  cases p <;> simp [legalPhases]

section phases
variable {p : Phase}

/-- LOAD and HASH share a row of the table of R253: legal in IDLE and DONE. -/
theorem legalIn_load_hash {i : Instr} (hi : i = .load ∨ i = .hash) (hp : p = .idle ∨ p = .done) :
    legalIn i p = true := by
  obtain rfl | rfl := hi <;> obtain rfl | rfl := hp <;> rfl

/-- LOAD and HASH are refused while a hash is under way. -/
theorem legalIn_load_hash_eq_false {i : Instr} (hi : i = .load ∨ i = .hash) (hp : p = .absorb ∨ p = .squeeze) :
    legalIn i p = false := by
  obtain rfl | rfl := hi <;> obtain rfl | rfl := hp <;> rfl

end phases

/-- What a sponge command does to the registers once it has passed its checks, with `m` on `msg_in`; no other command
does anything here. `exec_sponge` ties it to the model. -/
def Engine.spongedBy {c : Config} (e : Engine c) (m : BitVec c.msgBits) : Instr → Engine c
  | .load => { e with msg := m, array := StateArray.zero, rnd := 0, blk := 0, phase := .absorb }
  | .absorb =>
    { e with
      array := absorbBlock e.array e.blockOperand
      blk := e.blk + 1
      phase := if (e.blk + 1).toNat = nblk c.msgBits then .squeeze else e.phase }
  | .squeeze => { e with dig := squeeze e.array, phase := .done }
  | .hash =>
    { e with
      msg := m, array := absorb m, rnd := 0, blk := BitVec.ofNat 16 (nblk c.msgBits), dig := keccak256 m
      phase := .done }
  | .nop | .init | .theta | .rho | .pi | .chi | .iota | .round | .permute => e

section engine
variable {c : Config} (e : Engine c) (m : BitVec c.msgBits)

@[simp] theorem Engine.spongedBy_err (i : Instr) : (e.spongedBy m i).err = e.err := by cases i <;> rfl
@[simp] theorem Engine.spongedBy_errCode (i : Instr) : (e.spongedBy m i).errCode = e.errCode := by cases i <;> rfl

/-- While a block is left, the operand of ABSORB is block BLK of M (R195). -/
theorem Engine.blockOperand_of_lt (h : e.blk.toNat < nblk c.msgBits) : e.blockOperand = block e.msg e.blk.toNat :=
  if_pos h

/-- A quantity that neither the command nor a refusal changes is unchanged on every path (R254). -/
theorem Engine.attempt_frame {α : Type} (f : Engine c → α) {legal : List Phase} {act : Engine c → Engine c}
    (hrefuse : e.phase ∉ legal → f (e.raiseCmdError .badPhase) = f e) (hact : f (act e) = f e) :
    f (e.attempt legal act) = f e := by
  obtain ⟨-, heq⟩ | ⟨-, hp, heq⟩ | ⟨-, -, heq⟩ := e.attempt_cases act legal
  · rw [heq]
  · rw [heq, hrefuse hp]
  · rw [heq, hact]

end engine

section commands
variable {i : Instr} (hi : i.group = .sponge)
include hi

theorem exec_sponge (s : State) : exec i s = s.attempt (legalPhases i) fun e => e.spongedBy s.msgIn i := by
  cases i with
  | load | absorb | squeeze | hash => rfl
  | nop | init | theta | rho | pi | chi | iota | round | permute => contradiction

theorem exec_sponge_illegal {s : State} (he : s.eng.err = false) (hp : legalIn i s.eng.phase = false) :
    exec i s = s.badPhase := by
  have hmem : s.eng.phase ∉ legalPhases i := by simp [mem_legalPhases, hp]
  rw [exec_sponge hi, State.attempt, Engine.attempt_illegal _ _ _ he hmem]
  rfl

theorem exec_sponge_legal {s : State} (he : s.eng.err = false) (hp : legalIn i s.eng.phase = true) :
    exec i s = .next (s.withEngine (s.eng.spongedBy s.msgIn i)) := by
  rw [exec_sponge hi, State.attempt, Engine.attempt_legal _ _ _ he (mem_legalPhases.mpr hp)]

end commands

/-- Settles O49: on every path a command is ignored, refused or performed, and a legal phase shuts out the refusal. -/
theorem frameOfSpongeCommands : Obligations.FrameOfSpongeCommands := by
  intro s
  refine ⟨⟨_, exec_sponge rfl s, ?load⟩, ⟨_, exec_sponge rfl s, ?absorb⟩, ⟨_, exec_sponge rfl s, ?squeeze⟩,
    fun i hi hp => ?legal⟩
  case load => exact s.eng.attempt_frame (·.dig) (fun _ => rfl) rfl
  case absorb =>
    exact ⟨s.eng.attempt_frame (·.dig) (fun _ => rfl) rfl, s.eng.attempt_frame (·.msg) (fun _ => rfl) rfl,
      s.eng.attempt_frame (·.rnd) (fun _ => rfl) rfl⟩
  case squeeze =>
    exact ⟨s.eng.attempt_frame (·.array) (fun _ => rfl) rfl, s.eng.attempt_frame (·.msg) (fun _ => rfl) rfl,
      s.eng.attempt_frame (·.rnd) (fun _ => rfl) rfl, s.eng.attempt_frame (·.blk) (fun _ => rfl) rfl⟩
  case legal =>
    have hgroup : ∀ i ∈ [Instr.load, .absorb, .squeeze, .hash], i.group = .sponge := by decide
    have hmem : s.eng.phase ∈ legalPhases i := mem_legalPhases.mpr hp
    exact ⟨_, exec_sponge (hgroup i hi) s, s.eng.attempt_frame (·.err) (absurd hmem) (s.eng.spongedBy_err _ i),
      s.eng.attempt_frame (·.errCode) (absurd hmem) (s.eng.spongedBy_errCode _ i)⟩

end Sys2Proof.Machine
end

section
/-! PROOFS. A hash under way: the registers after LOAD and a number of ABSORBs (R210, R211, R221). -/

namespace Sys2Proof.Machine

/-- The registers after LOAD with `m` on `msg_in` and `k` ABSORBs, for `k` up to NBLK (R217, R218). -/
def Engine.afterBlocks {c : Config} (e : Engine c) (m : BitVec c.msgBits) (k : Nat) : Engine c :=
  { e with
    msg := m
    array := absorbPrefix m k
    rnd := 0
    blk := BitVec.ofNat 16 k
    phase := if k = nblk c.msgBits then .squeeze else .absorb }

section engine
variable {c : Config} (e : Engine c) (m : BitVec c.msgBits) {k : Nat}

theorem Engine.afterBlocks_toNat_blk (hk : k ≤ nblk c.msgBits) : (e.afterBlocks m k).blk.toNat = k := by
  have hmax := nblk_le c.legal.2
  exact (BitVec.toNat_ofNat k 16).trans (Nat.mod_eq_of_lt (by omega))

theorem Engine.afterBlocks_phase_of_lt (hk : k < nblk c.msgBits) : (e.afterBlocks m k).phase = .absorb :=
  if_neg hk.ne

theorem Engine.afterBlocks_phase_last : (e.afterBlocks m (nblk c.msgBits)).phase = .squeeze :=
  if_pos rfl

/-- LOAD stands at no block, and there is a first one (R191, R217). -/
theorem Engine.spongedBy_load : e.spongedBy m .load = e.afterBlocks m 0 := by
  have hpos := nblk_pos c.legal.1
  rw [afterBlocks, if_neg (by omega)]
  rfl

/-- ABSORB goes on to the next block (R218). -/
theorem Engine.spongedBy_absorb_afterBlocks (hk : k < nblk c.msgBits) :
    (e.afterBlocks m k).spongedBy m .absorb = e.afterBlocks m (k + 1) := by
  have hblk := e.afterBlocks_toNat_blk m hk.le
  have hleft := hblk.trans_lt hk
  have harray := absorbBlock_blockOperand hleft (congrArg (absorbPrefix m) hblk.symm)
  have hnext : (e.afterBlocks m k).blk + 1 = BitVec.ofNat 16 (k + 1) := (BitVec.ofNat_add k 1).symm
  rw [spongedBy, harray, toNat_blk_add_one hleft, hblk, hnext, afterBlocks_phase_of_lt e m hk]
  rfl

/-- After the last block SQUEEZE leaves what HASH leaves (R221). -/
theorem Engine.spongedBy_squeeze_afterBlocks :
    (e.afterBlocks m (nblk c.msgBits)).spongedBy m .squeeze = e.spongedBy m .hash :=
  rfl

end engine

theorem runSteps_one (s : State) : runSteps 1 s = step s := by
  rw [runSteps_succ]
  cases step s <;> rfl

section commands
variable {c : Config} (e : Engine c) (m : BitVec c.msgBits) (l : List (HostMove c)) (he : e.err = false) {k : Nat}
include he

theorem exec_load_mk (hp : e.phase = .idle ∨ e.phase = .done) :
    exec .load ⟨c, e, m, l⟩ = .next ⟨c, e.afterBlocks m 0, m, l⟩ := by
  rw [← e.spongedBy_load]
  exact exec_sponge_legal rfl he (legalIn_load_hash (.inl rfl) hp)

theorem exec_absorb_afterBlocks (hk : k < nblk c.msgBits) :
    exec .absorb ⟨c, e.afterBlocks m k, m, l⟩ = .next ⟨c, e.afterBlocks m (k + 1), m, l⟩ := by
  have hp := e.afterBlocks_phase_of_lt m hk
  rw [← e.spongedBy_absorb_afterBlocks m hk]
  exact exec_sponge_legal rfl he (by simp [hp, legalIn])

theorem exec_squeeze_afterBlocks :
    exec .squeeze ⟨c, e.afterBlocks m (nblk c.msgBits), m, l⟩ = .next ⟨c, e.spongedBy m .hash, m, l⟩ := by
  have hp := e.afterBlocks_phase_last m
  rw [← e.spongedBy_squeeze_afterBlocks]
  exact exec_sponge_legal rfl he (by simp [hp, legalIn])

/-- ABSORBs presented one after the other absorb one block each, as many as are left. -/
theorem runSteps_absorbs (k n : Nat) {b : Nat} (hk : b + k ≤ nblk c.msgBits) :
    runSteps (k + n) ⟨c, e.afterBlocks m b, m, issueAll (List.replicate k 0x21) ++ l⟩ =
      runSteps n ⟨c, e.afterBlocks m (b + k), m, l⟩ := by
  induction k generalizing b with
  | zero => rw [Nat.zero_add]; rfl
  | succ k ih =>
    have hstep : step ⟨c, e.afterBlocks m b, m, issueAll (List.replicate (k + 1) 0x21) ++ l⟩ =
        .next ⟨c, e.afterBlocks m (b + 1), m, issueAll (List.replicate k 0x21) ++ l⟩ :=
      exec_absorb_afterBlocks e m _ he (by omega)
    rw [Nat.add_right_comm, runSteps_next hstep, ih (by omega), Nat.add_assoc, Nat.add_comm 1 k]

/-- LOAD and `k` ABSORBs, and then `n` more steps. -/
theorem runSteps_load_absorbs (hp : e.phase = .idle ∨ e.phase = .done) (n : Nat) (hk : k ≤ nblk c.msgBits) :
    runSteps (k + n + 1) ⟨c, e, m, issueAll (0x20 :: List.replicate k 0x21) ++ l⟩ =
      runSteps n ⟨c, e.afterBlocks m k, m, l⟩ := by
  have hload : step ⟨c, e, m, issueAll (0x20 :: List.replicate k 0x21) ++ l⟩ =
      .next ⟨c, e.afterBlocks m 0, m, issueAll (List.replicate k 0x21) ++ l⟩ :=
    exec_load_mk e m _ he hp
  rw [runSteps_next hload, runSteps_absorbs e m l he k n (by omega), Nat.zero_add]

/-- LOAD, ABSORBs up to the last block, and one more code. -/
theorem runSteps_load_absorbs_code (hp : e.phase = .idle ∨ e.phase = .done) (code : CmdWord) :
    runSteps (nblk c.msgBits + 2)
        ⟨c, e, m, issueAll (0x20 :: (List.replicate (nblk c.msgBits) 0x21 ++ [code])) ++ l⟩ =
      State.issue ⟨c, e.afterBlocks m (nblk c.msgBits), m, l⟩ code := by
  have hmoves : issueAll (0x20 :: (List.replicate (nblk c.msgBits) 0x21 ++ [code])) ++ l =
      issueAll (0x20 :: List.replicate (nblk c.msgBits) 0x21) ++ .issue code :: l := by simp [issueAll]
  rw [hmoves, runSteps_load_absorbs e m _ he hp 1 le_rfl, runSteps_one, step_mk_issue]

end commands

/-- Settles O42: SQUEEZE after the last block is HASH, before it SQUEEZE is refused, and a further ABSORB after it. -/
theorem stepwiseHashEqualsAtomicHash : Obligations.StepwiseHashEqualsAtomicHash := by
  rintro ⟨c, e, m, _⟩ rest he hp
  have hhash : exec .hash ⟨c, e, m, rest⟩ = .next ⟨c, e.spongedBy m .hash, m, rest⟩ :=
    exec_sponge_legal rfl he (legalIn_load_hash (.inr rfl) hp)
  have hlast := e.afterBlocks_phase_last m
  refine ⟨?stepwise, ⟨_, hhash, rfl, rfl, toNat_ofNat_nblk c, rfl, rfl, rfl⟩, fun k hk => ?fewer, ?more⟩
  case stepwise =>
    exact (runSteps_load_absorbs_code e m rest he hp 0x22).trans
      ((exec_squeeze_afterBlocks e m rest he).trans hhash.symm)
  case fewer =>
    have hphase := e.afterBlocks_phase_of_lt m hk
    exact ⟨e.afterBlocks m k, runSteps_load_absorbs e m rest he hp 0 hk.le, hphase, he, e.afterBlocks_toNat_blk m hk.le,
      rfl, exec_sponge_illegal rfl he (by simp [hphase, legalIn])⟩
  case more =>
    have hrefused : exec .absorb ⟨c, e.afterBlocks m (nblk c.msgBits), m, rest⟩ = State.badPhase _ :=
      exec_sponge_illegal rfl he (by simp [hlast, legalIn])
    have hrun := (runSteps_load_absorbs_code e m rest he hp 0x21).trans hrefused
    rw [← List.replicate_succ'] at hrun
    exact ⟨_, hrun, rfl, rfl, hlast⟩

end Sys2Proof.Machine
end

section
/-! PROOFS. The commands LOAD, ABSORB, SQUEEZE and HASH one by one (R213, R217 to R220). -/

namespace Sys2Proof.Machine

/-- Settles O29: the first four lanes are the flattened bits below 256 (R119). -/
theorem digestIsTheFirstFourLanes : Obligations.DigestIsTheFirstFourLanes := by
  intro A
  refine ⟨fun i => getLsbD_squeeze A, fun x z hx hz => ?lane⟩
  have hnumber : laneNumber x 0 = x.val := by simp [laneNumber]
  rw [getLsbD_squeeze A (by omega), ← hnumber, sbit_laneNumber A x 0 hz]

/-- STATUS right after the first LOAD shows the phase and nothing else (R40). -/
theorem Engine.reset_load_statusWord {c : Config} (m : BitVec c.msgBits) :
    ((Engine.reset c).spongedBy m .load).statusWord = 1 := by
  simp [Engine.statusWord, Engine.spongedBy, Phase.bits, ErrCode.bits]

/-- Settles O37: LOAD writes the five registers of R217 and keeps the rest. -/
theorem loadLatchesTheMessage : Obligations.LoadLatchesTheMessage := by
  refine ⟨rfl, fun s he hp => exec_sponge_illegal rfl he (legalIn_load_hash_eq_false (.inl rfl) hp),
    fun s he hp => ?effect, fun c => ?reset⟩
  case effect =>
    rw [exec_sponge_legal rfl he (legalIn_load_hash (.inl rfl) hp), ← he]
    rfl
  case reset => exact ⟨_, exec_sponge_legal rfl rfl rfl, Engine.reset_load_statusWord _⟩

/-- Lane (0, 0) after the one block of the one-bit message of scenario (b) (R218). -/
theorem lane_absorb_oneBit : (absorb 1#1).lane 0 0 = 0x4AFF58B51D129E1F := by
  decide +kernel

/-- The digest of the one-bit message of scenario (b) (R219). -/
theorem keccak256_oneBit :
    keccak256 1#1 = 0xE4CC5B2AC827D67E86C597232268C9E8A97AB4486ED011614AFF58B51D129E1F := by
  decide +kernel

/-- Settles O38: while a block is left, the counter does not wrap and the block operand is block BLK of M. -/
theorem absorbTakesTheNextBlock : Obligations.AbsorbTakesTheNextBlock := by
  refine ⟨rfl, fun s he hp => exec_sponge_illegal rfl he (by simpa [legalIn] using hp), fun s he hp hleft => ?effect,
    fun s hinv hp => hinv.sequenced.absorb hp, ?oneBit⟩
  case effect =>
    refine ⟨_, exec_sponge_legal rfl he (by simp [legalIn, hp]), rfl, ?array, toNat_blk_add_one hleft, ?phase⟩
    case array => exact congrArg (absorbBlock s.eng.array) (s.eng.blockOperand_of_lt hleft)
    case phase => simp only [Engine.spongedBy, toNat_blk_add_one hleft, hp]
  case oneBit =>
    exact ⟨_, _, exec_load_mk _ _ _ rfl (.inl rfl), exec_absorb_afterBlocks _ _ _ rfl (by decide), lane_absorb_oneBit,
      rfl, by decide, by decide⟩

/-- Settles O40: SQUEEZE writes DIG and PHASE, and DONE refuses it. -/
theorem squeezeExtractsTheDigest : Obligations.SqueezeExtractsTheDigest := by
  refine ⟨rfl, fun s he hp => exec_sponge_illegal rfl he (by simpa [legalIn] using hp), fun s he hp => ?effect, ?oneBit⟩
  case effect =>
    exact ⟨_, exec_sponge_legal rfl he (by simp [legalIn, hp]), rfl, fun i => getLsbD_squeeze s.eng.array,
      exec_sponge_illegal rfl he rfl⟩
  case oneBit =>
    exact ⟨_, _, _, exec_load_mk _ _ _ rfl (.inl rfl), exec_absorb_afterBlocks _ _ _ rfl (by decide),
      exec_squeeze_afterBlocks _ _ _ rfl, rfl, keccak256_oneBit⟩

/-- The bytes of the digest of 256 zero bits (R220). -/
theorem bytesOfDigest_keccak256_zero :
    bytesOfDigest (keccak256 (0 : BitVec 256)) =
      [0x29, 0x0d, 0xec, 0xd9, 0x54, 0x8b, 0x62, 0xa8, 0xd6, 0x03, 0x45, 0xa9, 0x88, 0x38, 0x6f, 0xc8,
       0x4b, 0xa6, 0xbc, 0x95, 0x48, 0x40, 0x08, 0xf6, 0x36, 0x2f, 0x93, 0x16, 0x0e, 0xf3, 0xe5, 0x63] := by
  decide +kernel

/-- Settles O41: what HASH writes depends on `msg_in` only, so in DONE it writes the same again. -/
theorem hashIsTheWholeHash : Obligations.HashIsTheWholeHash := by
  refine ⟨rfl, fun s he hp => exec_sponge_illegal rfl he (legalIn_load_hash_eq_false (.inr rfl) hp),
    fun s he hp => ?effect, ?zeros⟩
  case effect =>
    exact ⟨_, exec_sponge_legal rfl he (legalIn_load_hash (.inr rfl) hp), rfl, rfl, rfl, toNat_ofNat_nblk s.cfg, rfl,
      rfl, he, rfl, exec_sponge_legal rfl he rfl⟩
  case zeros => exact ⟨_, exec_sponge_legal rfl rfl rfl, rfl, bytesOfDigest_keccak256_zero⟩

end Sys2Proof.Machine
end

section
/-! PROOFS. The control commands NOP and INIT, and the error gate on every other command (R240, R241, R255). -/

namespace Sys2Proof.Machine

theorem exec_nop (s : State) : exec .nop s = .next s := rfl

theorem exec_init (s : State) : exec .init s = .next s.resetEngine := rfl

/-- While ERR = 1 a command that goes through the checks is ignored (R254, R255). -/
theorem State.attempt_err {s : State} (he : s.eng.err = true) (legal : List Phase)
    (act : Engine s.cfg → Engine s.cfg) : s.attempt legal act = .next s := by
  rw [State.attempt, s.eng.attempt_err act legal he, State.withEngine_self]

/-- While ERR = 1 every command but INIT leaves the state as it is (R255). -/
theorem exec_of_err {i : Instr} {s : State} (he : s.eng.err = true) (hi : i ≠ .init) : exec i s = .next s := by
  cases hgroup : i.group with
  | control =>
    cases i with
    | nop => exact exec_nop s
    | init | theta | rho | pi | chi | iota | round | permute | load | absorb | squeeze | hash => contradiction
  | permutation => rw [exec_permutation hgroup, State.attempt_err he]
  | sponge => rw [exec_sponge hgroup, State.attempt_err he]

/-- STATUS right after a refused first command shows the error and nothing else (R40, R253). -/
theorem Engine.reset_badPhase_statusWord (c : Config) :
    ((Engine.reset c).raiseCmdError .badPhase).statusWord = 0x24 := by
  simp [Engine.statusWord, Phase.bits, ErrCode.bits]

/-- NOPs presented one after the other take themselves off the host's moves and do nothing else (R240). -/
theorem runSteps_nops {c : Config} (e : Engine c) (m : BitVec c.msgBits) (l : List (HostMove c)) (n : Nat) :
    runSteps n ⟨c, e, m, issueAll (List.replicate n 0x00) ++ l⟩ = .next ⟨c, e, m, l⟩ := by
  induction n with
  | zero => rfl
  | succ n ih =>
    have hstep : step ⟨c, e, m, issueAll (List.replicate (n + 1) 0x00) ++ l⟩ =
        .next ⟨c, e, m, issueAll (List.replicate n 0x00) ++ l⟩ :=
      step_mk_encode c e m _ .nop
    rw [runSteps_next hstep, ih]

/-- Settles O13: NOP answers the state it is given, and so does each of a run of NOPs. -/
theorem nopChangesNothing : Obligations.NopChangesNothing :=
  ⟨decodeWord_encode .nop, exec_nop, fun ⟨_, e, m, _⟩ n rest => runSteps_nops e m rest n,
    fun c => ⟨_, exec_nop _, Engine.reset_statusWord c⟩⟩

/-- Settles O14: INIT is the reset transition, and while ERR = 1 the gate ignores every other command. -/
theorem initReturnsEveryRegister : Obligations.InitReturnsEveryRegister := by
  refine ⟨decodeWord_encode .init, exec_init, fun i s he hi => exec_of_err he hi, fun c => ?afterError⟩
  case afterError =>
    have hrefused : exec .absorb (State.resetOf c) = (State.resetOf c).badPhase := exec_sponge_illegal rfl rfl rfl
    exact ⟨_, _, hrefused, Engine.reset_badPhase_statusWord c, exec_init _, Engine.reset_statusWord c⟩

end Sys2Proof.Machine
end

section
/-! PROOFS. The table of legal phases, the checks before a command, and the error that only `rst` and INIT clear
(R253 to R256). -/

namespace Sys2Proof.Machine

/-- NOP and INIT are legal in every phase (R253). -/
theorem legalIn_control {i : Instr} (hi : i.group = .control) (p : Phase) : legalIn i p = true := by
  cases i with
  | nop | init => rfl
  | theta | rho | pi | chi | iota | round | permute | load | absorb | squeeze | hash => contradiction

/-- The permutation commands share a row of the table of R253: legal in IDLE only. -/
theorem legalIn_permutation_iff {i : Instr} (hi : i.group = .permutation) {p : Phase} :
    legalIn i p = true ↔ p = .idle := by
  cases i with
  | theta | rho | pi | chi | iota | round | permute => exact beq_iff_eq
  | nop | init | load | absorb | squeeze | hash => contradiction

/-- LOAD and HASH share a row of the table of R253: legal in IDLE and DONE only. -/
theorem legalIn_load_hash_iff {i : Instr} (hi : i = .load ∨ i = .hash) {p : Phase} :
    legalIn i p = true ↔ p = .idle ∨ p = .done := by
  obtain rfl | rfl := hi <;> simp [legalIn]

/-- With ERR = 0 a command in a phase that does not allow it is refused, whatever its group (R253). -/
theorem exec_illegal {i : Instr} {s : State} (he : s.eng.err = false) (hp : legalIn i s.eng.phase = false) :
    exec i s = s.badPhase := by
  cases hgroup : i.group with
  | control => simp [legalIn_control hgroup] at hp
  | permutation =>
    have hidle : s.eng.phase ≠ .idle := by simp [← legalIn_permutation_iff hgroup, hp]
    exact exec_permutation_outside_idle hgroup he hidle
  | sponge => exact exec_sponge_illegal hgroup he hp

/-- With ERR = 0 a command in a phase that allows it is performed without an error, and the registers it leaves do not
depend on the host's coming moves (R253). -/
theorem exec_legal {c : Config} {e : Engine c} {i : Instr} (m : BitVec c.msgBits) (he : e.err = false)
    (hp : legalIn i e.phase = true) :
    ∃ f : Engine c, f.err = false ∧ ∀ l, exec i ⟨c, e, m, l⟩ = .next ⟨c, f, m, l⟩ := by
  cases hgroup : i.group with
  | control =>
    cases i with
    | nop => exact ⟨e, he, fun _ => exec_nop _⟩
    | init => exact ⟨Engine.reset c, rfl, fun _ => exec_init _⟩
    | theta | rho | pi | chi | iota | round | permute | load | absorb | squeeze | hash => contradiction
  | permutation =>
    have hidle : e.phase = .idle := (legalIn_permutation_iff hgroup).mp hp
    exact ⟨e.permutedBy i, by simpa using he, fun _ => exec_permutation_in_idle hgroup he hidle⟩
  | sponge => exact ⟨e.spongedBy m i, by simpa using he, fun _ => exec_sponge_legal hgroup he hp⟩

/-- Settles O43: the table is read row by row, and each group of commands is refused or performed as it says. -/
theorem legalityTableDecides : Obligations.LegalityTableDecides := by
  refine ⟨fun p => ⟨legalIn_control rfl p, legalIn_control rfl p⟩, fun i hi p => ?permutation,
    fun i hi p => legalIn_load_hash_iff (by simpa using hi), fun _ => beq_iff_eq, fun _ => beq_iff_eq,
    fun i s he => ⟨exec_illegal he, fun hp => ?performed⟩⟩
  case permutation =>
    have hgroup : i.group = .permutation := by revert i; decide
    exact legalIn_permutation_iff hgroup
  case performed =>
    obtain ⟨c, e, m, l⟩ := s
    obtain ⟨f, hf, hexec⟩ := exec_legal m he hp
    exact ⟨f, hexec l, hf⟩

/-- While ERR = 1 every code but INIT's, reserved ones included, is ignored (R255). -/
theorem issue_of_err {s : State} {code : CmdWord} (he : s.eng.err = true) (hcode : code ≠ encode .init) :
    s.issue code = .next s := by
  cases h : decodeWord code with
  | cmd i =>
    have hi : i ≠ .init := fun hi => hcode (hi ▸ eq_encode_of_decode h)
    rw [issue_cmd h, exec_of_err he hi]
  | reserved w => rw [issue_reserved h, State.refuseCode, s.eng.gated_err _ he, State.withEngine_self]

theorem step_issue_of_err {c : Config} {e : Engine c} (m : BitVec c.msgBits) (l : List (HostMove c)) {code : CmdWord}
    (he : e.err = true) (hcode : code ≠ encode .init) : step ⟨c, e, m, .issue code :: l⟩ = .next ⟨c, e, m, l⟩ :=
  (step_mk_issue c e m l code).trans (issue_of_err he hcode)

/-- Settles O44: the code is a command's or a reserved one, and the error gate stands before both. -/
theorem errorGateIgnoresCommands : Obligations.ErrorGateIgnoresCommands :=
  fun ⟨_, _, m, _⟩ _ rest he hcode => step_issue_of_err m rest he hcode

/-- Settles O45: one clause per check of R254, then NOP and INIT, then `rst` with a command. -/
theorem checksRunInOrder : Obligations.ChecksRunInOrder := by
  rintro ⟨c, e, m, l⟩ code rest
  refine ⟨fun he _ hinit => step_issue_of_err m rest he hinit,
    fun he hcode => step_mk_reserved e m rest hcode he,
    fun i hcode he hp => (step_mk_cmd e m rest hcode).trans (exec_illegal he hp),
    fun i hcode he hp => ?performed,
    fun i hcode _ => step_mk_cmd e m rest hcode,
    step_mk_reset c e m rest (some code)⟩
  case performed =>
    obtain ⟨f, hf, hexec⟩ := exec_legal m he hp
    exact ⟨f, (step_mk_cmd e m rest hcode).trans (hexec rest), hexec l, hf⟩

section moves
variable {c : Config} (e : Engine c) (m : BitVec c.msgBits) (l : List (HostMove c))

/-- While ERR = 1 a move that is neither `rst` nor INIT changes `msg_in` at most (R255, R256). -/
theorem step_of_err {move : HostMove c} (he : e.err = true) (hmove : move.clearsError = false) :
    ∃ n, step ⟨c, e, m, move :: l⟩ = .next ⟨c, e, n, l⟩ := by
  cases move with
  | drive n => exact ⟨n, step_mk_drive c e m n l⟩
  | issue code =>
    have hcode : code ≠ encode .init := by simpa [HostMove.clearsError] using hmove
    exact ⟨m, step_issue_of_err m l he hcode⟩
  | reset w => contradiction
  | read => exact ⟨m, step_mk_read c e m l⟩

/-- `rst`, with or without a command, and INIT are the reset transition in every state (R241, R280). -/
theorem step_of_clearsError {move : HostMove c} (hmove : move.clearsError = true) :
    step ⟨c, e, m, move :: l⟩ = .next ⟨c, Engine.reset c, m, l⟩ := by
  cases move with
  | issue code =>
    obtain rfl : code = encode .init := by simpa [HostMove.clearsError] using hmove
    exact (step_mk_encode c e m l .init).trans (exec_init _)
  | reset w => exact step_mk_reset c e m l w
  | drive n | read => contradiction

end moves

/-- Settles O46, by induction on the number of steps, over the host's moves and the value on `msg_in`. -/
theorem errorIsStickyOverRuns : Obligations.ErrorIsStickyOverRuns := by
  intro k c e m moves he hmoves
  induction k generalizing m moves with
  | zero => exact ⟨m, rfl⟩
  | succ k ih =>
    cases moves with
    | nil =>
      obtain ⟨n, hrun⟩ := ih m [] (by simp)
      exact ⟨n, (runSteps_next (step_mk_nil c e m)).trans (by simpa using hrun)⟩
    | cons move l =>
      obtain ⟨hmove, hrest⟩ := List.forall_mem_cons.mp hmoves
      obtain ⟨n, hstep⟩ := step_of_err e m l he hmove
      obtain ⟨n', hrun⟩ := ih n l hrest
      exact ⟨n', (runSteps_next hstep).trans hrun⟩

/-- Settles O47: a step with any other move, or with none left, keeps the registers while ERR = 1. -/
theorem onlyInitAndResetClearTheError : Obligations.OnlyInitAndResetClearTheError := by
  refine ⟨?cleared, fun ⟨_, e, m, _⟩ _ rest hmove => step_of_clearsError e m rest hmove⟩
  rintro ⟨c, e, m, _ | ⟨move, rest⟩⟩ t he hstep ht
  · obtain rfl : State.mk c e m [] = t := by injection (step_mk_nil c e m).symm.trans hstep
    exact absurd (he.symm.trans ht) (by decide)
  · refine ⟨move, rest, rfl, ?_⟩
    by_contra hmove
    obtain ⟨n, hkept⟩ := step_of_err e m rest he (by simpa using hmove)
    obtain rfl : State.mk c e n rest = t := by injection hkept.symm.trans hstep
    exact absurd (he.symm.trans ht) (by decide)

end Sys2Proof.Machine
end

section
/-! PROOFS. Building an engine: the check of the length, then the check of the tables (R6, R149, R262). -/

namespace Sys2Proof.Machine

variable {L : Nat} {constants : List Lane} {offsets : List (List Nat)}

theorem elaborate_next (h : 1 ≤ L ∧ L ≤ lMax) : elaborate L rcTable rhoRows = .next ⟨L, h⟩ := by
  simp [elaborate, h]

theorem elaborate_tableMismatch (h : 1 ≤ L ∧ L ≤ lMax) (htables : constants ≠ rcTable ∨ offsets ≠ rhoRows) :
    elaborate L constants offsets = .refused (.elaboration .tableMismatch) := by
  rw [elaborate, dif_pos h, if_neg (not_and_or.mpr htables)]

theorem elaborate_lengthTooSmall (h : L < 1) :
    elaborate L constants offsets = .refused (.elaboration .lengthTooSmall) := by
  have hrange : ¬(1 ≤ L ∧ L ≤ lMax) := by omega
  rw [elaborate, dif_neg hrange, if_pos h]

theorem elaborate_lengthTooLarge (h : lMax < L) :
    elaborate L constants offsets = .refused (.elaboration .lengthTooLarge) := by
  have hrange : ¬(1 ≤ L ∧ L ≤ lMax) := by omega
  have hpos : ¬L < 1 := by omega
  rw [elaborate, dif_neg hrange, if_neg hpos]

/-- An engine is built with the tables of R140 and R141 only. -/
theorem tables_of_elaborate_next {c : Config} (h : elaborate c.msgBits constants offsets = .next c) :
    constants = rcTable ∧ offsets = rhoRows := by
  by_contra htables
  have hrefused := elaborate_tableMismatch c.legal (not_and_or.mp htables)
  exact absurd (h.symm.trans hrefused) nofun

/-- Settles O55: a built engine carries the bounds on L, and each failed check has its own refusal. -/
theorem elaborationRefusesBadBuilds : Obligations.ElaborationRefusesBadBuilds := by
  refine fun L constants offsets => ⟨⟨?built, ?builds⟩, elaborate_lengthTooSmall, elaborate_lengthTooLarge,
    fun hpos hmax => elaborate_tableMismatch ⟨hpos, hmax⟩, fun c => c.legal⟩
  case built =>
    rintro ⟨c, hnext, rfl⟩
    exact ⟨c.legal.1, c.legal.2, tables_of_elaborate_next hnext⟩
  case builds =>
    rintro ⟨hpos, hmax, rfl, rfl⟩
    exact ⟨_, elaborate_next ⟨hpos, hmax⟩, rfl⟩

end Sys2Proof.Machine
end

section
/-! PROOFS. Where `msg_in` is sampled (R283): LOAD and HASH, and no other move. -/

namespace Sys2Proof.Machine

section engine
variable {c : Config} (e : Engine c) (m n : BitVec c.msgBits)

/-- A command other than LOAD and HASH writes the same registers whatever is on `msg_in`. -/
theorem Engine.after_msgIn_irrelevant {i : Instr} (hload : i ≠ .load) (hhash : i ≠ .hash) :
    e.after m i = e.after n i := by
  cases i with
  | load | hash => contradiction
  | nop | init | theta | rho | pi | chi | iota | round | permute | absorb | squeeze => rfl

/-- A code other than those of LOAD and HASH, reserved or not, writes the same registers whatever is on `msg_in`. -/
theorem Engine.afterCode_msgIn_irrelevant {code : CmdWord} (hload : code ≠ encode .load) (hhash : code ≠ encode .hash) :
    e.afterCode m code = e.afterCode n code := by
  cases h : decodeWord code with
  | cmd i =>
    obtain rfl := eq_encode_of_decode h
    have hi := e.after_msgIn_irrelevant m n (ne_of_apply_ne encode hload) (ne_of_apply_ne encode hhash)
    simpa [Engine.afterCode] using hi
  | reserved w => simp [Engine.afterCode, h]

/-- A move that does not sample `msg_in` leads from any two values on it to the same registers (R283). -/
theorem step_of_not_samplesMessage (l : List (HostMove c)) {move : HostMove c} (hmove : move.samplesMessage = false) :
    ∃ (f : Engine c) (p q : BitVec c.msgBits),
      step ⟨c, e, m, move :: l⟩ = .next ⟨c, f, p, l⟩ ∧ step ⟨c, e, n, move :: l⟩ = .next ⟨c, f, q, l⟩ := by
  cases move with
  | drive p => exact ⟨e, p, p, step_mk_drive c e m p l, step_mk_drive c e n p l⟩
  | issue code =>
    obtain ⟨hload, hhash⟩ : code ≠ encode .load ∧ code ≠ encode .hash := by
      simpa [HostMove.samplesMessage] using hmove
    refine ⟨e.afterCode m code, m, n, step_mk_code e m l code, ?_⟩
    rw [e.afterCode_msgIn_irrelevant m n hload hhash, step_mk_code]
  | reset w => exact ⟨Engine.reset c, m, n, step_mk_reset c e m l w, step_mk_reset c e n l w⟩
  | read => exact ⟨e, m, n, step_mk_read c e m l, step_mk_read c e n l⟩

end engine

/-- Two runs over moves that do not sample `msg_in` end with the same registers, by induction on the number of steps,
over the registers, both values on `msg_in` and the host's moves. -/
theorem runSteps_of_not_samplesMessage (k : Nat) {c : Config} (e : Engine c) (m n : BitVec c.msgBits)
    (moves : List (HostMove c)) (hmoves : ∀ move ∈ moves.take k, move.samplesMessage = false) :
    ∃ (f : Engine c) (p q : BitVec c.msgBits),
      runSteps k ⟨c, e, m, moves⟩ = .next ⟨c, f, p, moves.drop k⟩ ∧
      runSteps k ⟨c, e, n, moves⟩ = .next ⟨c, f, q, moves.drop k⟩ := by
  induction k generalizing e m n moves with
  | zero => exact ⟨e, m, n, rfl, rfl⟩
  | succ k ih =>
    cases moves with
    | nil =>
      obtain ⟨f, p, q, hm, hn⟩ := ih e m n [] (by simp)
      rw [List.drop_nil] at hm hn
      exact ⟨f, p, q, (runSteps_next (step_mk_nil c e m)).trans hm, (runSteps_next (step_mk_nil c e n)).trans hn⟩
    | cons move l =>
      obtain ⟨hmove, hrest⟩ := List.forall_mem_cons.mp hmoves
      obtain ⟨f, p, q, hm, hn⟩ := step_of_not_samplesMessage e m n l hmove
      obtain ⟨f', p', q', hm', hn'⟩ := ih f p q l hrest
      exact ⟨f', p', q', (runSteps_next hm).trans hm', (runSteps_next hn).trans hn'⟩

/-- Settles O10: LOAD and HASH latch `msg_in` where they are legal, and other moves do not look at it. -/
theorem messageIsSampledOnlyByLoadAndHash : Obligations.MessageIsSampledOnlyByLoadAndHash := by
  refine ⟨fun s he hp i hi => ?sampled, fun k _ e m n moves => runSteps_of_not_samplesMessage k e m n moves⟩
  have hlegal := legalIn_load_hash hi hp
  obtain rfl | rfl := hi <;> exact ⟨_, exec_sponge_legal rfl he hlegal, rfl⟩

end Sys2Proof.Machine
end

section
/-! PROOFS. Reset, power-up and the boot sequence (R280, R282). -/

namespace Sys2Proof.Machine

/-- The zero state shows zeros on `state_out` (R46). -/
theorem bitsFromState_zero : bitsFromState StateArray.zero = 0 := by
  refine BitVec.eq_of_getLsbD_eq fun i _ => ?_
  simp [sbit, unpackLane]

/-- Settles O11: `rst` and INIT are the reset transition, after which all outputs are zero with the registers. -/
theorem resetSetsEveryRegister : Obligations.ResetSetsEveryRegister := by
  refine ⟨fun ⟨c, e, m, _⟩ withCmd rest => ?_, rfl⟩
  exact ⟨Engine.reset c, step_mk_reset c e m rest withCmd, lane_zero, rfl, rfl, rfl, rfl, rfl, rfl, rfl,
    Engine.reset_statusWord c, rfl, bitsFromState_zero, exec_init _, rfl⟩

/-- Settles O56: a draw is legal exactly when BLK is at most NBLK, and the type of RND bounds it. -/
theorem powerUpDrawsTheLegalValues : Obligations.PowerUpDrawsTheLegalValues := by
  refine ⟨fun c e pins moves => ⟨fun hblk => ?drawn, fun ⟨hdraw, _⟩ => e.legalDraw_iff.mp hdraw⟩,
    fun c e hdraw pins moves => ⟨Nat.le_of_lt_succ e.rnd.isLt, e.legalDraw_iff.mp hdraw⟩, fun c => ?reset⟩
  case drawn => exact ⟨e.legalDraw_iff.mpr hblk, State.powerUp_eq ..⟩
  case reset => exact ⟨(Engine.reset c).legalDraw_iff.mpr (Engine.reset_ranges c).blk_le, rfl⟩

/-- HASH, and LOAD with NBLK ABSORBs and SQUEEZE, are one and the same hash (R221). -/
theorem runSteps_hash_codes {c : Config} (e : Engine c) (m : BitVec c.msgBits) {codes : List CmdWord}
    (hcodes : codes = [0x23] ∨ codes = 0x20 :: (List.replicate (nblk c.msgBits) 0x21 ++ [0x22]))
    (he : e.err = false) (hp : e.phase = .idle ∨ e.phase = .done) :
    runSteps codes.length ⟨c, e, m, issueAll codes⟩ = .next ⟨c, e.spongedBy m .hash, m, []⟩ := by
  have hhash : exec .hash ⟨c, e, m, []⟩ = .next ⟨c, e.spongedBy m .hash, m, []⟩ :=
    exec_sponge_legal rfl he (legalIn_load_hash (.inr rfl) hp)
  obtain rfl | rfl := hcodes
  · exact (runSteps_one _).trans ((step_mk_encode c e m [] .hash).trans hhash)
  · obtain ⟨hstepwise, -⟩ := stepwiseHashEqualsAtomicHash ⟨c, e, m, []⟩ [] he hp
    rw [List.append_nil] at hstepwise
    simpa using hstepwise.trans hhash

/-- Settles O12: the first move resets whatever was drawn, so the hash of the driven message starts from reset. -/
theorem bootFromAnyPowerUpState : Obligations.BootFromAnyPowerUpState := by
  intro c draw pins m start codes hstart hcodes
  have hclears : start.clearsError = true := by obtain rfl | rfl := hstart <;> rfl
  have hreset := step_of_clearsError draw pins (.drive m :: issueAll codes) hclears
  have hdrive := step_mk_drive c (Engine.reset c) pins m (issueAll codes)
  have hhash := runSteps_hash_codes (Engine.reset c) m hcodes rfl (.inl rfl)
  exact ⟨_, (runSteps_next hreset).trans ((runSteps_next hdrive).trans hhash), ⟨rfl, rfl⟩, rfl,
    (Engine.reset_inv c).canBecome (.hashed rfl (.inl rfl))⟩

end Sys2Proof.Machine
end

section
/-! PROOFS. ABSORB with no block left, in a state only power-up can leave (R195, R282, log entry 4). -/

namespace Sys2Proof.Machine

section pastEnd
variable {c : Config} {e : Engine c} (h : nblk c.msgBits ≤ e.blk.toNat)
include h

/-- With no block left, the operand of ABSORB is the free value of the model. -/
theorem Engine.blockOperand_of_nblk_le :
    e.blockOperand = Config.blockPastEnd c.msgBits e.msg e.blk.toNat :=
  if_neg h.not_gt

/-- A block counter at or past NBLK does not advance to NBLK: it goes on, or wraps to 0, and NBLK is at least 1 (R7). -/
theorem toNat_blk_add_one_ne_nblk : (e.blk + 1).toNat ≠ nblk c.msgBits := by
  have hpos := nblk_pos c.legal.1
  have hsucc : (e.blk + 1).toNat = (e.blk.toNat + 1) % 2 ^ 16 := BitVec.toNat_add e.blk 1
  omega

end pastEnd

/-- Settles O39: the operand is the free value, and BLK does not reach NBLK, so the phase stays ABSORB. -/
theorem absorbPastTheLastBlockCompletes : Obligations.AbsorbPastTheLastBlockCompletes := by
  intro s he hp hpast
  refine ⟨_, exec_sponge_legal rfl he (by simp [legalIn, hp]), ?registers, ?array⟩
  case registers => simp only [Engine.spongedBy, if_neg (toNat_blk_add_one_ne_nblk hpast), hp]
  case array => exact congrArg (absorbBlock s.eng.array) (Engine.blockOperand_of_nblk_le hpast)

end Sys2Proof.Machine
end
